-- ==== Sys2Proof/Word.lean ====
section
/-! DEFINITION. The widths of the block and its one data type: a 64-bit value kept as two 32-bit
halves (00_scope.md R6, R7; 10_state.md R15). -/

namespace Sys2Proof

/-- `HALF` = 32: one of the two halves of a value (00_scope.md R6, R7). -/
abbrev Half := BitVec 32

/-- `CMDW` = 32: a command word (30_encoding.md R47). -/
abbrev CmdWord := BitVec 32

/-- `NREG` = 16: the index of a value register; every index is legal (00_scope.md R6,
30_encoding.md R49). -/
abbrev RegIdx := Fin 16

/-- `AMTW` = 6 bits: a rotate or shift amount, 0..63 (30_encoding.md R50). -/
abbrev Amount := Fin 64

/-- A value: the pair `(hi, lo)`, `hi` being bits 63:32 and `lo` bits 31:0 (00_scope.md R7). A half
is 32 bits wide by its type, which is the document's normalisation invariant. -/
structure Value where
  hi : Half
  lo : Half
deriving DecidableEq, Repr

/-- `ZERO = (0, 0)` (00_scope.md R11). -/
def Value.zero : Value := ⟨0, 0⟩

/-- `ONE = (0, 1)` (00_scope.md R11). -/
def Value.one : Value := ⟨0, 1⟩

end Sys2Proof
end

