-- ==== Sys2Proof/Syntax.lean ====
section
/-! DEFINITION. The syntax: the twelve commands (spec/opcode_table.json, 30_encoding.md R51), their
opcodes and classes, the causes of an illegal command (10_state.md R19), and the pseudo-instructions
(30_encoding.md R59). -/

namespace Sys2Proof

/-- A command with its operands: destination, sources, amount. The two rows `shl` of the opcode table
are this one command (30_encoding.md R52). -/
inductive Instr where
  | add  (rd rs1 rs2 : RegIdx)
  | sub  (rd rs1 rs2 : RegIdx)
  | neg  (rd rs1 : RegIdx)
  | inc  (rd rs1 : RegIdx)
  | mul  (rd rs1 rs2 : RegIdx)
  | xor  (rd rs1 rs2 : RegIdx)
  | and  (rd rs1 rs2 : RegIdx)
  | not  (rd rs1 : RegIdx)
  | mod2 (rd rs1 : RegIdx)
  | rotl (rd rs1 : RegIdx) (n : Amount)
  | rotr (rd rs1 : RegIdx) (n : Amount)
  | shl  (rd rs1 : RegIdx) (n : Amount)
deriving DecidableEq, Repr

/-- The legal values of the field `OP` (30_encoding.md R51). -/
inductive Opcode where
  | add | sub | neg | inc | mul | xor | and | not | mod2 | rotl | rotr | shl
deriving DecidableEq, Repr

/-- Which fields an operation reads (30_encoding.md R51). -/
inductive CmdClass where
  | r3   -- RD, RS1, RS2
  | r2   -- RD, RS1
  | ra   -- RD, RS1, AMT
deriving DecidableEq, Repr

/-- Why a command word is illegal (10_state.md R19, 60_exceptions.md R84). -/
inductive IllegalCause where
  | reservedOpcode
  | nonzeroReservedField
  | shlAmountRange
deriving DecidableEq, Repr

/-- The pseudo-instructions of the assembler (30_encoding.md R59). -/
inductive Pseudo where
  | mov   (vd vs : RegIdx)
  | swaph (vd vs : RegIdx)
  | clr   (vd : RegIdx)
  | nop
  | ldone (vd : RegIdx)
deriving DecidableEq, Repr

/-- The class of an opcode (30_encoding.md R51, R56). -/
def Opcode.cls : Opcode → CmdClass
  | .add => .r3
  | .sub => .r3
  | .neg => .r2
  | .inc => .r2
  | .mul => .r3
  | .xor => .r3
  | .and => .r3
  | .not => .r2
  | .mod2 => .r2
  | .rotl => .ra
  | .rotr => .ra
  | .shl => .ra

/-- The opcode of a command. -/
def Instr.opcode : Instr → Opcode
  | .add _ _ _ => .add
  | .sub _ _ _ => .sub
  | .neg _ _ => .neg
  | .inc _ _ => .inc
  | .mul _ _ _ => .mul
  | .xor _ _ _ => .xor
  | .and _ _ _ => .and
  | .not _ _ => .not
  | .mod2 _ _ => .mod2
  | .rotl _ _ _ => .rotl
  | .rotr _ _ _ => .rotr
  | .shl _ _ _ => .shl

/-- The destination `RD` of a command, the one register it writes (20_memory.md R29). -/
def Instr.dest : Instr → RegIdx
  | .add rd _ _ => rd
  | .sub rd _ _ => rd
  | .neg rd _ => rd
  | .inc rd _ => rd
  | .mul rd _ _ => rd
  | .xor rd _ _ => rd
  | .and rd _ _ => rd
  | .not rd _ => rd
  | .mod2 rd _ => rd
  | .rotl rd _ _ => rd
  | .rotr rd _ _ => rd
  | .shl rd _ _ => rd

/-- The source registers a command reads (10_state.md R15). -/
def Instr.sources : Instr → List RegIdx
  | .add _ rs1 rs2 => [rs1, rs2]
  | .sub _ rs1 rs2 => [rs1, rs2]
  | .neg _ rs1 => [rs1]
  | .inc _ rs1 => [rs1]
  | .mul _ rs1 rs2 => [rs1, rs2]
  | .xor _ rs1 rs2 => [rs1, rs2]
  | .and _ rs1 rs2 => [rs1, rs2]
  | .not _ rs1 => [rs1]
  | .mod2 _ rs1 => [rs1]
  | .rotl _ rs1 _ => [rs1]
  | .rotr _ rs1 _ => [rs1]
  | .shl _ rs1 _ => [rs1]

end Sys2Proof
end

