-- ==== Sys2Proof/WellFormed.lean ====
section
/-! DEFINITION. Which commands an encoding can stand for. Register indices and amounts are in range by
their types; the one check left is SHL's amount (44_rotate.md R80). -/

namespace Sys2Proof

/-- A command is well formed when its amount, for SHL, is at most 32 (44_rotate.md R80). -/
def Instr.wellFormed : Instr → Bool
  | .add _ _ _ => true
  | .sub _ _ _ => true
  | .neg _ _ => true
  | .inc _ _ => true
  | .mul _ _ _ => true
  | .xor _ _ _ => true
  | .and _ _ _ => true
  | .not _ _ => true
  | .mod2 _ _ => true
  | .rotl _ _ _ => true
  | .rotr _ _ _ => true
  | .shl _ _ n => decide (n.val ≤ 32)

end Sys2Proof
end

