-- ==== Sys2Proof/Decode.lean ====
section
/-! DEFINITION. From a command word to a command or the cause of its refusal, total on all 2^32 words
(30_encoding.md R56), then the encoder (R48) and the match and mask table (R52). -/

namespace Sys2Proof

/-! ### The fields of format C (30_encoding.md R48) -/

/-- `OP = w[31:28]`. -/
def opField (w : CmdWord) : BitVec 4 := w.extractLsb' 28 4

/-- `RD = w[27:24]`. -/
def rdField (w : CmdWord) : RegIdx := (w.extractLsb' 24 4).toFin

/-- `RS1 = w[23:20]`. -/
def rs1Field (w : CmdWord) : RegIdx := (w.extractLsb' 20 4).toFin

/-- `RS2 = w[19:16]`. -/
def rs2Field (w : CmdWord) : RegIdx := (w.extractLsb' 16 4).toFin

/-- `Z = w[15:6]`, reserved, zero in every command. -/
def zField (w : CmdWord) : BitVec 10 := w.extractLsb' 6 10

/-- `AMT = w[5:0]`, unsigned (30_encoding.md R50). -/
def amtField (w : CmdWord) : Amount := (w.extractLsb' 0 6).toFin

/-- The opcode map; `none` for the reserved 0x0, 0xD, 0xE, 0xF (30_encoding.md R51, R53). -/
def Opcode.ofBits (b : BitVec 4) : Option Opcode :=
  match b.toNat with
  | 0x1 => some .add
  | 0x2 => some .sub
  | 0x3 => some .neg
  | 0x4 => some .inc
  | 0x5 => some .mul
  | 0x6 => some .xor
  | 0x7 => some .and
  | 0x8 => some .not
  | 0x9 => some .mod2
  | 0xA => some .rotl
  | 0xB => some .rotr
  | 0xC => some .shl
  | _ => none

/-- The command of an opcode with the fields its class reads. -/
def Instr.ofFields (op : Opcode) (rd rs1 rs2 : RegIdx) (n : Amount) : Instr :=
  match op with
  | .add => .add rd rs1 rs2
  | .sub => .sub rd rs1 rs2
  | .neg => .neg rd rs1
  | .inc => .inc rd rs1
  | .mul => .mul rd rs1 rs2
  | .xor => .xor rd rs1 rs2
  | .and => .and rd rs1 rs2
  | .not => .not rd rs1
  | .mod2 => .mod2 rd rs1
  | .rotl => .rotl rd rs1 n
  | .rotr => .rotr rd rs1 n
  | .shl => .shl rd rs1 n

/-- Decoding, with its checks in the order of 30_encoding.md R56; the first that fails gives the cause
(60_exceptions.md R86). -/
def decode (w : CmdWord) : Except IllegalCause Instr :=
  match Opcode.ofBits (opField w) with
  | none => .error .reservedOpcode
  | some op =>
    if zField w ≠ 0 then .error .nonzeroReservedField
    else if (op.cls = .r3 ∨ op.cls = .r2) ∧ amtField w ≠ 0 then .error .nonzeroReservedField
    else if (op.cls = .r2 ∨ op.cls = .ra) ∧ rs2Field w ≠ 0 then .error .nonzeroReservedField
    else if op = .shl ∧ 32 < (amtField w).val then .error .shlAmountRange
    else .ok (Instr.ofFields op (rdField w) (rs1Field w) (rs2Field w) (amtField w))

/-- The command of an opcode-table word of `nbits` bits, as the host numbers them: the table's rows are
all one 32-bit word, carried whole in `req_cmd` (30_encoding.md R47). A longer word is no command. -/
def decodeTableWord (nbits w : Nat) : Option Instr :=
  if nbits ≤ 32 then
    match decode (BitVec.ofNat 32 (w % 2 ^ nbits)) with
    | .ok i => some i
    | .error _ => none
  else none

/-! ### The encoder -/

/-- The value of the field `OP` (30_encoding.md R51). -/
def Opcode.bits : Opcode → BitVec 4
  | .add => 0x1
  | .sub => 0x2
  | .neg => 0x3
  | .inc => 0x4
  | .mul => 0x5
  | .xor => 0x6
  | .and => 0x7
  | .not => 0x8
  | .mod2 => 0x9
  | .rotl => 0xA
  | .rotr => 0xB
  | .shl => 0xC

/-- The word of format C, field by field from bit 31 down (30_encoding.md R48). -/
def formatC (op : BitVec 4) (rd rs1 rs2 : RegIdx) (z : BitVec 10) (n : Amount) : CmdWord :=
  op ++ BitVec.ofFin (w := 4) rd ++ BitVec.ofFin (w := 4) rs1 ++ BitVec.ofFin (w := 4) rs2 ++ z ++
    BitVec.ofFin (w := 6) n

/-- The word of a command: the fields its class does not read are zero (30_encoding.md R54). -/
def encode : Instr → CmdWord
  | .add rd rs1 rs2 => formatC Opcode.add.bits rd rs1 rs2 0 0
  | .sub rd rs1 rs2 => formatC Opcode.sub.bits rd rs1 rs2 0 0
  | .neg rd rs1 => formatC Opcode.neg.bits rd rs1 0 0 0
  | .inc rd rs1 => formatC Opcode.inc.bits rd rs1 0 0 0
  | .mul rd rs1 rs2 => formatC Opcode.mul.bits rd rs1 rs2 0 0
  | .xor rd rs1 rs2 => formatC Opcode.xor.bits rd rs1 rs2 0 0
  | .and rd rs1 rs2 => formatC Opcode.and.bits rd rs1 rs2 0 0
  | .not rd rs1 => formatC Opcode.not.bits rd rs1 0 0 0
  | .mod2 rd rs1 => formatC Opcode.mod2.bits rd rs1 0 0 0
  | .rotl rd rs1 n => formatC Opcode.rotl.bits rd rs1 0 0 n
  | .rotr rd rs1 n => formatC Opcode.rotr.bits rd rs1 0 0 n
  | .shl rd rs1 n => formatC Opcode.shl.bits rd rs1 0 0 n

/-! ### The match and mask table -/

/-- A row of the opcode table: a word `w` is the command when `w & mask = pattern` (30_encoding.md R52). -/
structure TableRow where
  op      : Opcode
  pattern : CmdWord
  mask    : CmdWord
deriving DecidableEq, Repr

/-- The thirteen rows of 30_encoding.md R52. -/
def opcodeTable : List TableRow := [
  ⟨.add, 0x10000000, 0xF000FFFF⟩, ⟨.sub, 0x20000000, 0xF000FFFF⟩, ⟨.neg, 0x30000000, 0xF00FFFFF⟩,
  ⟨.inc, 0x40000000, 0xF00FFFFF⟩, ⟨.mul, 0x50000000, 0xF000FFFF⟩, ⟨.xor, 0x60000000, 0xF000FFFF⟩,
  ⟨.and, 0x70000000, 0xF000FFFF⟩, ⟨.not, 0x80000000, 0xF00FFFFF⟩, ⟨.mod2, 0x90000000, 0xF00FFFFF⟩,
  ⟨.rotl, 0xA0000000, 0xF00FFFC0⟩, ⟨.rotr, 0xB0000000, 0xF00FFFC0⟩, ⟨.shl, 0xC0000000, 0xF00FFFE0⟩,
  ⟨.shl, 0xC0000020, 0xF00FFFFF⟩]

/-- Whether a word matches a row. -/
def TableRow.hit (r : TableRow) (w : CmdWord) : Bool := w &&& r.mask == r.pattern

end Sys2Proof
end

