-- ==== Sys2Proof/Machine/State.lean ====
section
/-! DEFINITION. All the state of the block (10_state.md R22, R24), with the request port's two ends
beside it: the host events still to come and the responses given. -/

namespace Sys2Proof.Machine

/-- The request kinds (20_memory.md R27). -/
inductive ReqKind where
  | cmd
  | wr
  | rd
  | rdstat
deriving DecidableEq, Repr

/-- The request signals as the host drives them (20_memory.md R26): raw bits, the fields a kind does not
use among them. -/
structure Request where
  kind : BitVec 2
  cmd  : CmdWord
  idx  : BitVec 4
  hi   : Half
  lo   : Half
deriving DecidableEq, Repr

/-- A response: the words `rsp_hi` and `rsp_lo` (20_memory.md R26, R27). -/
structure Response where
  hi : BitVec 32
  lo : BitVec 32
deriving DecidableEq, Repr

/-- What the host may do to the block (20_memory.md R34). -/
inductive HostEvent where
  /-- The host issues a request. -/
  | request (q : Request)
  /-- The host asserts `rst`: between requests (`none`), or while the request `q` is accepted and has not
  yet given its response (`some q`), which abandons it (70_reset_and_hazards.md R97). -/
  | reset (inFlight : Option Request)
deriving DecidableEq, Repr

/-- The state of the machine. -/
structure State where
  /-- The value registers `V0` .. `V15` (10_state.md R15). -/
  regs : Vector Value 16
  /-- `STATUS` (10_state.md R18): `ERR` bit 0, `CAUSE` bits 3:1, bits 31:4 reserved. -/
  status : BitVec 32
  /-- `ERRCMD` (10_state.md R20). -/
  errcmd : BitVec 32
  /-- The host's events in the order in which the block meets them, the next one first: the model's own
  field for the request port (20_memory.md R26, R28; DESIGN CHOICE, log entry 1). -/
  inbox : List HostEvent
  /-- The responses the block has given, oldest first: the model's own record of the response signals
  (20_memory.md R28; DESIGN CHOICE, log entry 2). -/
  responses : List Response
deriving DecidableEq, Repr

/-- Why the machine stops with a fault. -/
inductive Fault where
  /-- Raised by the clock-level port (Machine/Port.lean) alone, never by `step`: the host changed a
  request it was holding before acceptance. The spec does not give the block's reaction and lets a
  cycle-level model stop (93_implementation_defined.md U7). Safe: the model stops where the block goes
  on (log entry 13). -/
  | hostChangedRequest
deriving DecidableEq, Repr

/-- Why the machine refuses an instruction. -/
inductive Refusal where
  /-- Raised by an arm of `exec` whose instruction has no meaning yet; no arm is such now. Safe. -/
  | notModelled (mnemonic : String)
deriving DecidableEq, Repr

/-- The machine right after reset (10_state.md R24, 70_reset_and_hazards.md R97): every register `ZERO`,
`STATUS` and `ERRCMD` zero. The two port fields are empty (DESIGN CHOICE, log entries 1 and 2). -/
def State.reset : State where
  regs := Vector.replicate 16 Value.zero
  status := 0
  errcmd := 0
  inbox := []
  responses := []

end Sys2Proof.Machine
end

