-- ==== Sys2Proof/Machine/Flags.lean ====
section
/-! DEFINITION. The block has no arithmetic flags (10_state.md R17), so no instruction computes one. This
file holds the fields of its one status word, `STATUS` (10_state.md R18, R19), and the output `err_out`
(R21). -/

namespace Sys2Proof.Machine

/-- `STATUS.ERR`, bit 0 (10_state.md R18). -/
def statusErr (st : BitVec 32) : BitVec 1 := st.extractLsb' 0 1

/-- `STATUS.CAUSE`, bits 3:1 (10_state.md R18). -/
def statusCause (st : BitVec 32) : BitVec 3 := st.extractLsb' 1 3

/-- The reserved bits 31:4 of `STATUS` (10_state.md R18). -/
def statusReserved (st : BitVec 32) : BitVec 28 := st.extractLsb' 4 28

/-- `STATUS` with `ERR` set and `CAUSE` written; the reserved bits are never written and stay as they are
(10_state.md R18; DEDUCED, log entry 7). -/
def statusRecord (st : BitVec 32) (cause : BitVec 3) : BitVec 32 :=
  statusReserved st ++ cause ++ (1 : BitVec 1)

/-- The code a cause is recorded under (10_state.md R19, 60_exceptions.md R84). -/
def causeCode : IllegalCause → BitVec 3
  | .reservedOpcode => 1
  | .nonzeroReservedField => 2
  | .shlAmountRange => 3

/-- The output `err_out`, equal to `STATUS.ERR` at all times: a view of `STATUS`, not stored a second time
(10_state.md R21; log entry 8). -/
def State.errOut (s : State) : BitVec 1 := statusErr s.status

end Sys2Proof.Machine
end

