-- ==== Sys2Proof/Machine/Operands.lean ====
section
/-! DEFINITION. The views of a value that the rules are written in: as a number, signed and unsigned
(00_scope.md R12), as four 16-bit limbs (R13), and as eight bytes (20_memory.md R39). The operand forms
themselves are three only: a register read whole, a register written whole (Machine/Ops.lean), and the
6-bit amount, a plain unsigned number (30_encoding.md R50). -/

namespace Sys2Proof

/-- `val(v) = hi * 2^32 + lo` (00_scope.md R12). -/
def Value.val (v : Value) : Nat := v.hi.toNat * 2 ^ 32 + v.lo.toNat

/-- `U(n) = ((n mod 2^64) >> 32, n mod 2^32)` for any integer, a negative one too; `mod` is never negative
(00_scope.md R12). -/
def Value.ofInt (n : Int) : Value :=
  ⟨BitVec.ofNat 32 ((n % 2 ^ 64).toNat >>> 32), BitVec.ofNat 32 (n % 2 ^ 32).toNat⟩

/-- `U(n)` of a natural number (00_scope.md R12). -/
def Value.ofNat (n : Nat) : Value := ⟨BitVec.ofNat 32 ((n % 2 ^ 64) >>> 32), BitVec.ofNat 32 (n % 2 ^ 32)⟩

/-- `sval(v) = val(v) - 2^64 * hi[31]`, the two's-complement view of the same bits (00_scope.md R12). -/
def Value.sval (v : Value) : Int := (v.val : Int) - 2 ^ 64 * (v.hi.getLsbD 31).toNat

/-- `low16(x) = x[15:0]` (00_scope.md R13). -/
def low16 (x : Nat) : Nat := x % 2 ^ 16

/-- `high16(x) = x[31:16]`, on a 32-bit half (00_scope.md R13). -/
def high16 (x : Nat) : Nat := (x >>> 16) % 2 ^ 16

/-- `carry(x) = x >> 16`, on a limb sum (00_scope.md R13). -/
def carry (x : Nat) : Nat := x >>> 16

/-- Limb `v00 = v.lo[15:0]` (00_scope.md R13). -/
def Value.limb00 (v : Value) : Nat := low16 v.lo.toNat

/-- Limb `v16 = v.lo[31:16]` (00_scope.md R13). -/
def Value.limb16 (v : Value) : Nat := high16 v.lo.toNat

/-- Limb `v32 = v.hi[15:0]` (00_scope.md R13). -/
def Value.limb32 (v : Value) : Nat := low16 v.hi.toNat

/-- Limb `v48 = v.hi[31:16]` (00_scope.md R13). -/
def Value.limb48 (v : Value) : Nat := high16 v.hi.toNat

/-- A half from two limbs: `((top << 16) | low16(bottom)) & M32`; the conversion to 32 bits is the mask
(41_adder.md R60). -/
def halfOfLimbs (top bottom : Nat) : Half := BitVec.ofNat 32 ((top <<< 16) ||| low16 bottom)

/-- The serialised form of a value: eight bytes, big-endian, `hi` first (20_memory.md R39). -/
def Value.toBytes (v : Value) : List (BitVec 8) :=
  [v.hi.extractLsb' 24 8, v.hi.extractLsb' 16 8, v.hi.extractLsb' 8 8, v.hi.extractLsb' 0 8,
   v.lo.extractLsb' 24 8, v.lo.extractLsb' 16 8, v.lo.extractLsb' 8 8, v.lo.extractLsb' 0 8]

/-- The value of eight big-endian bytes; no other number of bytes is a serialised value
(20_memory.md R39). -/
def Value.ofBytes : List (BitVec 8) → Option Value
  | [b0, b1, b2, b3, b4, b5, b6, b7] => some ⟨b0 ++ b1 ++ b2 ++ b3, b4 ++ b5 ++ b6 ++ b7⟩
  | _ => none

end Sys2Proof
end

