-- ==== Sys2Proof/Machine/Ops.lean ====
section
/-! DEFINITION. The named operations on the state: reading and writing a register, raising the one
exception of the block, giving a response, and reset. -/

namespace Sys2Proof.Machine

/-- `V[i]` (00_scope.md R11). No register is hardwired (10_state.md R15). -/
def State.readV (s : State) (r : RegIdx) : Value := s.regs[r]

/-- `V[i] <- v`, both halves at once (00_scope.md R11, 20_memory.md R37). -/
def State.writeV (s : State) (r : RegIdx) (v : Value) : State := { s with regs := s.regs.set r v }

/-- `raise IllegalCommand(cause, w)`, the block's whole exception entry (60_exceptions.md R85): the first
error since reset is recorded, a later one changes nothing, and no value register is written. There is
no return from it (60_exceptions.md R88, R89). -/
def raiseIllegal (cause : IllegalCause) (w : CmdWord) (s : State) : State :=
  if statusErr s.status = 0 then
    { s with status := statusRecord s.status (causeCode cause), errcmd := w }
  else s

/-- The response that CMD and WR give (20_memory.md R27, R29). -/
def Response.zero : Response := ⟨0, 0⟩

/-- The block gives a response: responses come in request order (20_memory.md R28). -/
def State.respond (s : State) (r : Response) : State := { s with responses := s.responses ++ [r] }

/-- The reset state of 70_reset_and_hazards.md R97. What the host has yet to do and has already received
is not the block's and stays (log entry 4). -/
def State.applyReset (s : State) : State :=
  { State.reset with inbox := s.inbox, responses := s.responses }

/-- The two bits of `req_kind` (20_memory.md R27). -/
def ReqKind.ofBits (b : BitVec 2) : ReqKind :=
  match b.toNat with
  | 0 => .cmd
  | 1 => .wr
  | 2 => .rd
  | _ => .rdstat

/-- The register that `req_idx` names; every index is legal (10_state.md R15). -/
def Request.reg (q : Request) : RegIdx := q.idx.toFin

/-- A CMD request that carries the word `w`; the fields it does not use are zero. -/
def Request.ofCmd (w : CmdWord) : Request := ⟨0b00, w, 0, 0, 0⟩

/-- A WR request. -/
def Request.ofWr (r : RegIdx) (v : Value) : Request := ⟨0b01, 0, BitVec.ofFin r, v.hi, v.lo⟩

/-- An RD request. -/
def Request.ofRd (r : RegIdx) : Request := ⟨0b10, 0, BitVec.ofFin r, 0, 0⟩

/-- An RDSTAT request. -/
def Request.ofRdstat : Request := ⟨0b11, 0, 0, 0, 0⟩

end Sys2Proof.Machine
end

