-- ==== Sys2Proof/Machine/Bitwise.lean ====
section
/-! DEFINITION. The bitwise unit: XOR, AND, NOT, MOD2 (43_bitwise.md). -/

namespace Sys2Proof.Machine

/-- `xor64(a, b)`, half by half (43_bitwise.md R71). -/
def xor64 (a b : Value) : Value := ⟨a.hi ^^^ b.hi, a.lo ^^^ b.lo⟩

/-- `and64(a, b)`, half by half (43_bitwise.md R71). -/
def and64 (a b : Value) : Value := ⟨a.hi &&& b.hi, a.lo &&& b.lo⟩

/-- `not64(a)`, half by half; the 32-bit complement is the mask (43_bitwise.md R71). -/
def not64 (a : Value) : Value := ⟨~~~a.hi, ~~~a.lo⟩

/-- XOR (43_bitwise.md R72). -/
def execXor (rd rs1 rs2 : RegIdx) (s : State) : Host.Outcome State Fault Refusal :=
  .next (s.writeV rd (xor64 (s.readV rs1) (s.readV rs2)))

/-- AND (43_bitwise.md R73). -/
def execAnd (rd rs1 rs2 : RegIdx) (s : State) : Host.Outcome State Fault Refusal :=
  .next (s.writeV rd (and64 (s.readV rs1) (s.readV rs2)))

/-- NOT (43_bitwise.md R74). -/
def execNot (rd rs1 : RegIdx) (s : State) : Host.Outcome State Fault Refusal :=
  .next (s.writeV rd (not64 (s.readV rs1)))

/-- MOD2: AND with `ONE` (43_bitwise.md R75). -/
def execMod2 (rd rs1 : RegIdx) (s : State) : Host.Outcome State Fault Refusal :=
  .next (s.writeV rd (and64 (s.readV rs1) Value.one))

end Sys2Proof.Machine
end

