-- ==== Sys2Proof/Machine/Adder.lean ====
section
/-! DEFINITION. The adder family: ADD, SUB, NEG, INC (41_adder.md). -/

namespace Sys2Proof.Machine

/-- `add64(a, b)`: four 16-bit limb sums, each taking the carry of the one below it; the carry out of the
top limb is discarded (41_adder.md R60). -/
def add64 (a b : Value) : Value :=
  let limb0 := low16 a.lo.toNat + low16 b.lo.toNat
  let limb1 := high16 a.lo.toNat + high16 b.lo.toNat + carry limb0
  let limb2 := low16 a.hi.toNat + low16 b.hi.toNat + carry limb1
  let limb3 := high16 a.hi.toNat + high16 b.hi.toNat + carry limb2
  ⟨halfOfLimbs limb3 limb2, halfOfLimbs limb1 limb0⟩

/-- `neg(a) = add(one(), not(a))` (41_adder.md R63). -/
def neg64 (a : Value) : Value := add64 Value.one (not64 a)

/-- `sub(a, b) = add(a, neg(b))` (41_adder.md R62). -/
def sub64 (a b : Value) : Value := add64 a (neg64 b)

/-- ADD (41_adder.md R61). -/
def execAdd (rd rs1 rs2 : RegIdx) (s : State) : Host.Outcome State Fault Refusal :=
  .next (s.writeV rd (add64 (s.readV rs1) (s.readV rs2)))

/-- SUB (41_adder.md R62). -/
def execSub (rd rs1 rs2 : RegIdx) (s : State) : Host.Outcome State Fault Refusal :=
  .next (s.writeV rd (sub64 (s.readV rs1) (s.readV rs2)))

/-- NEG (41_adder.md R63). -/
def execNeg (rd rs1 : RegIdx) (s : State) : Host.Outcome State Fault Refusal :=
  .next (s.writeV rd (neg64 (s.readV rs1)))

/-- INC (41_adder.md R64). -/
def execInc (rd rs1 : RegIdx) (s : State) : Host.Outcome State Fault Refusal :=
  .next (s.writeV rd (add64 (s.readV rs1) Value.one))

end Sys2Proof.Machine
end

