-- ==== Sys2Proof/Machine/Multiplier.lean ====
section
/-! DEFINITION. The multiplier: MUL (42_multiplier.md). -/

namespace Sys2Proof.Machine

/-- The general path of the multiplier: the column sums of the 16-bit partial products, each column taking
the carry of the one below it; what leaves the top column is discarded (42_multiplier.md R67). -/
def mulColumns (a b : Value) : Value :=
  let s0 := a.limb00 * b.limb00
  let s1 := a.limb00 * b.limb16 + a.limb16 * b.limb00
  let s2 := a.limb00 * b.limb32 + a.limb16 * b.limb16 + a.limb32 * b.limb00
  let s3 := a.limb00 * b.limb48 + a.limb16 * b.limb32 + a.limb32 * b.limb16 + a.limb48 * b.limb00
  let t0 := s0
  let t1 := s1 + carry t0
  let t2 := s2 + carry t1
  let t3 := s3 + carry t2
  ⟨halfOfLimbs (low16 t3) t2, halfOfLimbs (low16 t1) t0⟩

/-- `mul64(a, b)`, with the document's early exit for a zero operand (42_multiplier.md R67). -/
def mul64 (a b : Value) : Value :=
  if a.val = 0 ∨ b.val = 0 then Value.zero else mulColumns a b

/-- MUL (42_multiplier.md R68). -/
def execMul (rd rs1 rs2 : RegIdx) (s : State) : Host.Outcome State Fault Refusal :=
  .next (s.writeV rd (mul64 (s.readV rs1) (s.readV rs2)))

end Sys2Proof.Machine
end

