-- ==== Sys2Proof/Machine/Rotator.lean ====
section
/-! DEFINITION. The rotator: ROTL, ROTR, SHL (44_rotate.md). -/

namespace Sys2Proof.Machine

/-- Rotation left by an amount of 1..31: the halves exchange bits (44_rotate.md R77). The shifts of 32-bit
halves drop what leaves them (the mask) and fill with zero (00_scope.md R8). -/
def rotlBelow32 (a : Value) (n : Nat) : Value :=
  ⟨(a.hi <<< n) ||| (a.lo >>> (32 - n)), (a.lo <<< n) ||| (a.hi >>> (32 - n))⟩

/-- Rotation right by an amount of 1..31 (44_rotate.md R77). -/
def rotrBelow32 (a : Value) (n : Nat) : Value :=
  ⟨(a.hi >>> n) ||| (a.lo <<< (32 - n)), (a.lo >>> n) ||| (a.hi <<< (32 - n))⟩

/-- `rotl64(a, n)` for `n` in 0..63 (44_rotate.md R77). Above 32 it is `rotr64(a, 64 - n)`, whose amount is
then in 1..31, so the rule's recursion is one level deep and is written out. -/
def rotl64 (a : Value) (n : Nat) : Value :=
  if n = 0 then a
  else if n = 32 then ⟨a.lo, a.hi⟩
  else if 32 < n then rotrBelow32 a (64 - n)
  else rotlBelow32 a n

/-- `rotr64(a, n)` for `n` in 0..63, the mirror of `rotl64` (44_rotate.md R77). -/
def rotr64 (a : Value) (n : Nat) : Value :=
  if n = 0 then a
  else if n = 32 then ⟨a.lo, a.hi⟩
  else if 32 < n then rotlBelow32 a (64 - n)
  else rotrBelow32 a n

/-- SHL's mask: all ones in `hi`, the complement of `2^n - 1` in `lo` (44_rotate.md R80). -/
def shlMask (n : Nat) : Value := ⟨BitVec.allOnes 32, ~~~(BitVec.ofNat 32 (2 ^ n - 1))⟩

/-- `shl(a, n)` for `n` in 0..32: rotate left, then clear the bits that wrapped (44_rotate.md R80). -/
def shl64 (a : Value) (n : Nat) : Value := and64 (rotl64 a n) (shlMask n)

/-- ROTL (44_rotate.md R78). -/
def execRotl (rd rs1 : RegIdx) (n : Amount) (s : State) : Host.Outcome State Fault Refusal :=
  .next (s.writeV rd (rotl64 (s.readV rs1) n.val))

/-- ROTR (44_rotate.md R79). -/
def execRotr (rd rs1 : RegIdx) (n : Amount) (s : State) : Host.Outcome State Fault Refusal :=
  .next (s.writeV rd (rotr64 (s.readV rs1) n.val))

/-- SHL (44_rotate.md R80): an amount above 32 raises IllegalCommand with cause 3. The word it records is
the command's own (DEDUCED, log entry 6). -/
def execShl (rd rs1 : RegIdx) (n : Amount) (s : State) : Host.Outcome State Fault Refusal :=
  if 32 < n.val then .next (raiseIllegal .shlAmountRange (encode (.shl rd rs1 n)) s)
  else .next (s.writeV rd (shl64 (s.readV rs1) n.val))

end Sys2Proof.Machine
end

