-- ==== Sys2Proof/Machine/Dispatch.lean ====
section
/-! DEFINITION. One arm per command. -/

namespace Sys2Proof.Machine

/-- What a command does to the state (20_memory.md R29). -/
def exec (i : Instr) (s : State) : Host.Outcome State Fault Refusal :=
  match i with
  -- the adder (41_adder.md)
  | .add rd rs1 rs2 => Sys2Proof.Machine.execAdd rd rs1 rs2 s
  | .sub rd rs1 rs2 => Sys2Proof.Machine.execSub rd rs1 rs2 s
  | .neg rd rs1 => Sys2Proof.Machine.execNeg rd rs1 s
  | .inc rd rs1 => Sys2Proof.Machine.execInc rd rs1 s
  -- the multiplier (42_multiplier.md)
  | .mul rd rs1 rs2 => Sys2Proof.Machine.execMul rd rs1 rs2 s
  -- the bitwise unit (43_bitwise.md)
  | .xor rd rs1 rs2 => Sys2Proof.Machine.execXor rd rs1 rs2 s
  | .and rd rs1 rs2 => Sys2Proof.Machine.execAnd rd rs1 rs2 s
  | .not rd rs1 => Sys2Proof.Machine.execNot rd rs1 s
  | .mod2 rd rs1 => Sys2Proof.Machine.execMod2 rd rs1 s
  -- the rotator (44_rotate.md)
  | .rotl rd rs1 n => Sys2Proof.Machine.execRotl rd rs1 n s
  | .rotr rd rs1 n => Sys2Proof.Machine.execRotr rd rs1 n s
  | .shl rd rs1 n => Sys2Proof.Machine.execShl rd rs1 n s

end Sys2Proof.Machine
end

