-- ==== Sys2Proof/Machine/Requests.lean ====
section
/-! DEFINITION. Serving one request of each kind (20_memory.md R27 to R33), and which registers a request
reads and writes. -/

namespace Sys2Proof.Machine

/-- What serving a request yields: the state after it and its response, or the reason it stopped. -/
abbrev Served := Host.Outcome (State × Response) Fault Refusal

/-- A state change that gives the response `r`. -/
def answer (r : Response) : Host.Outcome State Fault Refusal → Served
  | .next t => .next (t, r)
  | .fault f => .fault f
  | .refused why => .refused why

/-- CMD: decode the word, then perform the command or raise IllegalCommand; the response is `(0, 0)` either
way (20_memory.md R29, 60_exceptions.md R85). -/
def serveCmd (w : CmdWord) (s : State) : Served :=
  match decode w with
  | .error cause => .next (raiseIllegal cause w s, Response.zero)
  | .ok i => answer Response.zero (exec i s)

/-- WR: both halves of the register are written in one step; response `(0, 0)` (20_memory.md R31). -/
def serveWr (r : RegIdx) (v : Value) (s : State) : Served := .next (s.writeV r v, Response.zero)

/-- RD: the response is the register, and nothing changes (20_memory.md R32). -/
def serveRd (r : RegIdx) (s : State) : Served := .next (s, ⟨(s.readV r).hi, (s.readV r).lo⟩)

/-- RDSTAT: the response is `(ERRCMD, STATUS)`, and nothing changes (20_memory.md R33). -/
def serveRdstat (s : State) : Served := .next (s, ⟨s.errcmd, s.status⟩)

/-- One request, atomically (20_memory.md R28). The fields its kind does not use are ignored (R27). -/
def serve (q : Request) (s : State) : Served :=
  match ReqKind.ofBits q.kind with
  | .cmd => serveCmd q.cmd s
  | .wr => serveWr q.reg ⟨q.hi, q.lo⟩ s
  | .rd => serveRd q.reg s
  | .rdstat => serveRdstat s

/-- What a served request leaves once its response is given. -/
def giveResponse : Served → Host.Outcome State Fault Refusal
  | .next (t, r) => .next (t.respond r)
  | .fault f => .fault f
  | .refused why => .refused why

/-- What a request abandoned by a reset leaves: no response, and everything it wrote is overwritten by the
reset state (70_reset_and_hazards.md R97). -/
def abandon : Served → Host.Outcome State Fault Refusal
  | .next (t, _) => .next t.applyReset
  | .fault f => .fault f
  | .refused why => .refused why

/-- One host event, the state's `inbox` already without it. -/
def handle (e : HostEvent) (s : State) : Host.Outcome State Fault Refusal :=
  match e with
  | .request q => giveResponse (serve q s)
  | .reset none => .next s.applyReset
  | .reset (some q) => abandon (serve q s)

/-- The register a request writes, if any (10_state.md R15, 20_memory.md R29, R31). -/
def Request.writes (q : Request) : Option RegIdx :=
  match ReqKind.ofBits q.kind with
  | .cmd =>
    match decode q.cmd with
    | .ok i => some i.dest
    | .error _ => none
  | .wr => some q.reg
  | .rd => none
  | .rdstat => none

/-- The registers a request reads (10_state.md R15, 20_memory.md R29, R32). -/
def Request.reads (q : Request) : List RegIdx :=
  match ReqKind.ofBits q.kind with
  | .cmd =>
    match decode q.cmd with
    | .ok i => i.sources
    | .error _ => []
  | .wr => []
  | .rd => [q.reg]
  | .rdstat => []

/-- The cause and word of a request that is an illegal command (60_exceptions.md R83). -/
def Request.illegal (q : Request) : Option (IllegalCause × CmdWord) :=
  match ReqKind.ofBits q.kind with
  | .cmd =>
    match decode q.cmd with
    | .ok _ => none
    | .error cause => some (cause, q.cmd)
  | .wr => none
  | .rd => none
  | .rdstat => none

end Sys2Proof.Machine
end

