-- ==== Sys2Proof/Machine/Step.lean ====
section
/-! DEFINITION. One step of the machine: one host event (20_memory.md R25, R28), and how a command word is
put where the next step meets it. -/

namespace Sys2Proof.Machine

/-- One step: the next host event is taken and handled whole. With no event waiting the block is idle and
keeps all its state (20_memory.md R25, 60_exceptions.md R96; log entry 3). -/
def step (s : State) : Host.Outcome State Fault Refusal :=
  match s.inbox with
  | [] => .next s
  | e :: rest => handle e { s with inbox := rest }

/-- The state in which the next event is a CMD request with the word `w`. Commands are not fetched from
storage: each arrives in its own CMD request (20_memory.md R42; log entry 16). -/
def State.withFetchWord (s : State) (nbits w : Nat) : State :=
  { s with inbox := .request (Request.ofCmd (BitVec.ofNat 32 (w % 2 ^ nbits))) :: s.inbox }

end Sys2Proof.Machine
end

