-- ==== Sys2Proof/Machine/Arbiter.lean ====
section
/-! DEFINITION. The OPEN parameter `ARB`: the orders in which an external arbiter may put the requests of
several host masters onto the one port (20_memory.md R25, 92_eei_decisions.md D21; log entry 9). -/

namespace Sys2Proof.Machine

/-- `ArbOrder ms es`: `es` is one interleaving of the masters' sequences `ms`, each kept in its own order. A
statement for every `es` with `ArbOrder ms es` is one for every value of `ARB`. -/
inductive ArbOrder : List (List HostEvent) → List HostEvent → Prop where
  | done (ms : List (List HostEvent)) (h : ∀ m ∈ ms, m = []) : ArbOrder ms []
  | grant (ms : List (List HostEvent)) (k : Nat) (e : HostEvent) (rest es : List HostEvent)
      (h : ms[k]? = some (e :: rest)) (later : ArbOrder (ms.set k rest) es) : ArbOrder ms (e :: es)

/-- An event that is a request and writes no register of the set `own`. -/
def HostEvent.writesOutside (own : RegIdx → Bool) : HostEvent → Bool
  | .request q =>
    match q.writes with
    | some r => !own r
    | none => true
  | .reset _ => false

/-- An event that is a request, reads only registers of the set `own`, and writes only such. -/
def HostEvent.staysWithin (own : RegIdx → Bool) : HostEvent → Bool
  | .request q =>
    q.reads.all own &&
      match q.writes with
      | some r => own r
      | none => true
  | .reset _ => false

end Sys2Proof.Machine
end

