-- ==== Sys2Proof/Machine/Assembler.lean ====
section
/-! DEFINITION. The notation of listings (30_encoding.md R58) and the pseudo-instructions' expansions (R59).
No step reads this file. -/

namespace Sys2Proof.Machine

/-- The commands a pseudo-instruction stands for, in order (30_encoding.md R59). -/
def expand : Pseudo → List Instr
  | .mov vd vs => [.rotl vd vs 0]
  | .swaph vd vs => [.rotl vd vs 32]
  | .clr vd => [.xor vd vd vd]
  | .nop => [.and 0 0 0]
  | .ldone vd => [.xor vd vd vd, .inc vd vd]

/-- The name of a register, `v0` to `v15` (30_encoding.md R58). -/
def regName (r : RegIdx) : String := "v" ++ toString r.val

/-- Class R3: `mn vD, vS1, vS2` (30_encoding.md R58). -/
def listingR3 (mn : String) (rd rs1 rs2 : RegIdx) : String :=
  mn ++ " " ++ regName rd ++ ", " ++ regName rs1 ++ ", " ++ regName rs2

/-- Class R2: `mn vD, vS1` (30_encoding.md R58). -/
def listingR2 (mn : String) (rd rs1 : RegIdx) : String :=
  mn ++ " " ++ regName rd ++ ", " ++ regName rs1

/-- Class RA: `mn vD, vS1, n`, the amount in decimal (30_encoding.md R58). -/
def listingRA (mn : String) (rd rs1 : RegIdx) (n : Amount) : String :=
  mn ++ " " ++ regName rd ++ ", " ++ regName rs1 ++ ", " ++ toString n.val

/-- The line of a listing for a command: the mnemonic in lower case, destination first
(30_encoding.md R58). -/
def listing : Instr → String
  | .add rd rs1 rs2 => listingR3 "add" rd rs1 rs2
  | .sub rd rs1 rs2 => listingR3 "sub" rd rs1 rs2
  | .neg rd rs1 => listingR2 "neg" rd rs1
  | .inc rd rs1 => listingR2 "inc" rd rs1
  | .mul rd rs1 rs2 => listingR3 "mul" rd rs1 rs2
  | .xor rd rs1 rs2 => listingR3 "xor" rd rs1 rs2
  | .and rd rs1 rs2 => listingR3 "and" rd rs1 rs2
  | .not rd rs1 => listingR2 "not" rd rs1
  | .mod2 rd rs1 => listingR2 "mod2" rd rs1
  | .rotl rd rs1 n => listingRA "rotl" rd rs1 n
  | .rotr rd rs1 n => listingRA "rotr" rd rs1 n
  | .shl rd rs1 n => listingRA "shl" rd rs1 n

end Sys2Proof.Machine
end

