-- ==== Sys2Proof/Config.lean ====
section
/-! DEFINITION. What the spec leaves open, as constants without a body, so that a claim holds whatever
they are. At the request level nothing is open (00_scope.md R9); the constants below are read only by
the clock-level port (Machine/Port.lean). Each takes the number of the accepted request, the request
itself (so the command too) and the block that accepts it (so the operands too): the spec ties none of
them to less. The parameter `ARB` is a relation, in Machine/Arbiter.lean. -/

namespace Sys2Proof

open Sys2Proof.Machine (Request State)

/-- By how many cycles the latency of an accepted request exceeds its least value, one. -/
opaque Config.latencyExtra (k : Nat) (q : Request) (s : State) : Nat

/-- `RSP_LATENCY` of the request `q`, the `k`-th accepted, in the block `s`: any value of at least one cycle.
It may differ between requests and between commands, and a MUL with a zero operand may finish sooner
(00_scope.md R6, 70_reset_and_hazards.md R102). -/
def Config.rspLatency (k : Nat) (q : Request) (s : State) : Nat := Config.latencyExtra k q s + 1

/-- Whether a response presented in the very cycle in which reset comes still counts as given. The spec does
not settle it (DESIGN CHOICE, log entry 12). -/
opaque Config.answersAtReset (k : Nat) (q : Request) (s : State) : Bool

/-- Whether an accepted request would take effect together with its response, and not at the edge that
closes the response's cycle. The spec does not say (DESIGN CHOICE, log entry 11). -/
opaque Config.effectWithResponse (k : Nat) (q : Request) (s : State) : Bool

/-- Whether the effect of an accepted request already shows in the cycle of its response. It may only where
a reset in that cycle no longer abandons the request, since nothing of an abandoned request is
observable (70_reset_and_hazards.md R97; DEDUCED, log entry 11). -/
def Config.showsWithResponse (k : Nat) (q : Request) (s : State) : Bool :=
  Config.answersAtReset k q s && Config.effectWithResponse k q s

end Sys2Proof
end

