-- ==== Sys2Proof/Machine/Port.lean ====
section
/-! DEFINITION. The request port clock by clock (20_memory.md R26, 70_reset_and_hazards.md R97): a second
machine around the same State and the same `serve`. No rule of the request level depends on it
(00_scope.md R2); it says how the handshake carries the requests that `step` performs. Log entries 10 to
14. -/

namespace Sys2Proof.Machine

/-- A request in flight, with what was open about it, fixed when it was accepted. -/
structure Flight where
  req : Request
  /-- Whether its response counts as given where reset comes in that cycle (log entry 12). -/
  answersAtReset : Bool
  /-- Whether its effect shows in the cycle of its response already (log entry 11). -/
  showsWithResponse : Bool
deriving DecidableEq, Repr

/-- Where the port stands between two rising edges of `clk`. -/
inductive Phase where
  /-- The block can accept a request. -/
  | ready
  /-- The request of `f` is accepted and has `left` cycles to go, the last of them the one that presents its
  response; `rsp` is the response where the request has already taken effect in that cycle. -/
  | busy (f : Flight) (rsp : Option Response) (left : Nat)
deriving DecidableEq, Repr

/-- The clocked block. -/
structure Port where
  /-- The block behind the port. Its `inbox` is not used here: requests come on the signals. -/
  block : State
  phase : Phase
  /-- The request that the host presented at the last edge and that was not accepted: it must hold it. -/
  waiting : Option Request
  /-- How many requests have been accepted, which names the free latency of each (log entry 10). -/
  accepted : Nat
deriving DecidableEq, Repr

/-- The input signals in one cycle, sampled at its closing edge: `rst`, `req_valid`, and the request
fields. -/
structure PortIn where
  rst      : Bool
  reqValid : Bool
  req      : Request
deriving DecidableEq, Repr

/-- The output signals in one cycle: `req_ready`, the response with `rsp_valid` (`none` when `rsp_valid` is
0, where the response lines mean nothing; log entry 14), and `err_out`. -/
structure PortOut where
  reqReady : Bool
  rsp      : Option Response
  errOut   : BitVec 1
deriving DecidableEq, Repr

/-- The port at the reset state (70_reset_and_hazards.md R97). -/
def Port.reset : Port := ⟨State.reset, .ready, none, 0⟩

/-- The `k`-th accepted request `q` as it is when the block `s` accepts it. -/
def Flight.accepted (k : Nat) (q : Request) (s : State) : Flight :=
  ⟨q, Config.answersAtReset k q s, Config.showsWithResponse k q s⟩

/-- What the host presents in a cycle. -/
def PortIn.presented (inp : PortIn) : Option Request := if inp.reqValid then some inp.req else none

/-- The block and the response that a request in flight ends with: already there, or those of serving it
now. -/
def Port.completed (p : Port) (q : Request) : Option Response → Served
  | some r => .next (p.block, r)
  | none => serve q p.block

/-- The response of a served request. -/
def responseOf : Served → Option Response
  | .next (_, r) => some r
  | .fault _ => none
  | .refused _ => none

/-- The response that the current cycle presents: the last cycle of a busy phase. -/
def Port.presenting (p : Port) : Option Response :=
  match p.phase with
  | .ready => none
  | .busy f rsp left => if left ≤ 1 then responseOf (p.completed f.req rsp) else none

/-- Whether the response of the request in flight, if any, counts as given where reset comes in its cycle,
which is free (log entry 12). -/
def Port.answersAtReset (p : Port) : Bool :=
  match p.phase with
  | .ready => false
  | .busy f _ _ => f.answersAtReset

/-- The presented response where it counts as given: always, but for a cycle in which reset comes. -/
def Port.given (p : Port) (rst : Bool) : Option Response :=
  if rst && !p.answersAtReset then none else p.presenting

/-- The output signals (20_memory.md R26, 70_reset_and_hazards.md R97: `req_ready` is 0 while `rst` is 1). -/
def Port.out (p : Port) (rst : Bool) : PortOut where
  reqReady := !rst && p.phase == .ready
  rsp := p.given rst
  errOut := p.block.errOut

/-- The block as a reset finds it, the response given in that cycle, if any, among its responses. -/
def Port.blockAtReset (p : Port) : State :=
  match p.given true with
  | some r => p.block.respond r
  | none => p.block

/-- On entering the cycle of its response, the accepted request takes effect where that shows with the
response; no request takes effect earlier, since until its response a reset abandons it
(70_reset_and_hazards.md R97; log entry 11). -/
def Port.performIfDue (p : Port) : Host.Outcome Port Fault Refusal :=
  match p.phase with
  | .busy f none left =>
    if left ≤ 1 && f.showsWithResponse then
      match serve f.req p.block with
      | .next (t, r) => .next { p with block := t, phase := .busy f (some r) left }
      | .fault why => .fault why
      | .refused why => .refused why
    else .next p
  | .busy _ (some _) _ => .next p
  | .ready => .next p

/-- Whether the host changed a request it was holding (93_implementation_defined.md U7). `Port.clock` asks this
only where `rst` is 0 (DESIGN CHOICE, log entry 13). -/
def Port.hostBroke (p : Port) (inp : PortIn) : Bool :=
  match p.waiting, inp.presented with
  | some held, some q => held != q
  | some _, none => false
  | none, _ => false

/-- One rising edge of `clk` (20_memory.md R26): reset first; then acceptance when ready; while busy one
cycle passes, and at the end of the cycle of the response the request is complete and the port ready.
A held request that the host changes stops the port (93_implementation_defined.md U7; DESIGN CHOICE, log
entry 13), but not at an edge where `rst` is 1: there the reset is entered and the request presented at
that edge is the one held from then on (DESIGN CHOICE, log entry 13). -/
def Port.clock (p : Port) (inp : PortIn) : Host.Outcome Port Fault Refusal :=
  if inp.rst then
    .next { p with block := p.blockAtReset.applyReset, phase := .ready, waiting := inp.presented }
  else if p.hostBroke inp then .fault .hostChangedRequest
  else
    match p.phase with
    | .ready =>
      match inp.presented with
      | some q =>
        Port.performIfDue
          { p with phase := .busy (.accepted p.accepted q p.block) none
                     (Config.rspLatency p.accepted q p.block),
                   waiting := none, accepted := p.accepted + 1 }
      | none => .next { p with waiting := none }
    | .busy f rsp left =>
      if left ≤ 1 then
        match giveResponse (p.completed f.req rsp) with
        | .next t => .next { p with block := t, phase := .ready, waiting := inp.presented }
        | .fault why => .fault why
        | .refused why => .refused why
      else Port.performIfDue { p with phase := .busy f rsp (left - 1), waiting := inp.presented }

/-- The port over several cycles, with the outputs of each. -/
def Port.cycles (p : Port) : List PortIn → Host.Outcome (Port × List PortOut) Fault Refusal
  | [] => .next (p, [])
  | inp :: rest =>
    match p.clock inp with
    | .next p' =>
      match Port.cycles p' rest with
      | .next (p'', outs) => .next (p'', p.out inp.rst :: outs)
      | .fault f => .fault f
      | .refused why => .refused why
    | .fault f => .fault f
    | .refused why => .refused why

end Sys2Proof.Machine
end

