-- ==== Sys2Proof/Safety.lean ====
section
/-! DEFINITION. What claims are stated in: running a list of host events, the invariant of the error
registers, the record they should hold, and the invariant of the clocked port. -/

namespace Sys2Proof.Machine

/-- The block serves a list of host events from a state, one step each, and nothing more. -/
def State.serveAll (s : State) (es : List HostEvent) : Host.Outcome State Fault Refusal :=
  Sys2Proof.core.run es.length { s with inbox := es }

/-- The CMD requests for a list of commands, in order. -/
def cmdEvents (is : List Instr) : List HostEvent := is.map fun i => .request (Request.ofCmd (encode i))

/-- An event that the block answers: a request, not a reset (20_memory.md R28, R34). -/
def HostEvent.isRequest : HostEvent → Bool
  | .request _ => true
  | .reset _ => false

/-- The error registers are legal: reserved bits zero; without an error `CAUSE` and `ERRCMD` are zero; with
one, `ERRCMD` holds a word that is illegal for the cause recorded (10_state.md R18, R19, R20,
93_implementation_defined.md U6). -/
def State.statusLegal (s : State) : Bool :=
  statusReserved s.status == 0 &&
    if statusErr s.status = 0 then statusCause s.status == 0 && s.errcmd == 0
    else
      match decode s.errcmd with
      | .error cause => statusCause s.status == causeCode cause
      | .ok _ => false

/-- The first illegal command since the last reset, after some events, given the one before them
(10_state.md R20, 60_exceptions.md R89). -/
def firstIllegal (before : Option (IllegalCause × CmdWord)) :
    List HostEvent → Option (IllegalCause × CmdWord)
  | [] => before
  | .request q :: es =>
    match before with
    | some e => firstIllegal (some e) es
    | none => firstIllegal q.illegal es
  | .reset _ :: es => firstIllegal none es

/-- The error registers hold exactly the record `e`: `STATUS` is `ERR` in bit 0 with the cause above it, or
zero (10_state.md R18, R20). -/
def State.holdsRecord (s : State) : Option (IllegalCause × CmdWord) → Prop
  | none => s.status = 0 ∧ s.errcmd = 0
  | some (cause, w) => s.status = BitVec.ofNat 32 (2 * (causeCode cause).toNat + 1) ∧ s.errcmd = w

/-- The port is legal: a busy phase has a cycle left, and the request in flight has taken effect only in the
cycle of its response, and only where it may show there, which is where a reset in that cycle no longer
abandons it (20_memory.md R26, 70_reset_and_hazards.md R97). -/
def Port.legal (p : Port) : Bool :=
  match p.phase with
  | .ready => true
  | .busy f rsp left =>
    decide (1 ≤ left) && (!f.showsWithResponse || f.answersAtReset) &&
      (rsp.isNone || (decide (left = 1) && f.showsWithResponse))

end Sys2Proof.Machine
end

