-- ==== Sys2Proof/Certificates/Slice0/Obligations.lean ====
section
/-! DEFINITION. The statements for the provers. Each docstring names the rules it rests on. -/

open Sys2Proof Sys2Proof.Machine

/-! ### The encoding (30_encoding.md) -/

/-- The decode vectors of 95_test_vectors.md section 4. -/
def Obligations.SampleWordsDecodeAsListed : Prop :=
  decode 0x13120000 = .ok (.add 3 1 2) ∧ decode 0x32100000 = .ok (.neg 2 1) ∧
  decode 0xA4100010 = .ok (.rotl 4 1 16) ∧ decode 0x8FF00000 = .ok (.not 15 15) ∧
  decode 0x5FFF0000 = .ok (.mul 15 15 15) ∧ decode 0xB0F0003F = .ok (.rotr 0 15 63) ∧
  decode 0xC0100020 = .ok (.shl 0 1 32) ∧ decode 0x70000000 = .ok (.and 0 0 0) ∧
  decode 0x00000000 = .error .reservedOpcode ∧ decode 0xF1234567 = .error .reservedOpcode ∧
  decode 0x13120040 = .error .nonzeroReservedField ∧ decode 0x32110000 = .error .nonzeroReservedField ∧
  decode 0xC0100021 = .error .shlAmountRange ∧ decode 0xC01000FF = .error .nonzeroReservedField

/-- Decoding the word of a well-formed command gives that command, whatever its operands. -/
def Obligations.DecodeOfEncodeIsTheCommand : Prop :=
  ∀ i : Instr, i.wellFormed = true → decode (encode i) = .ok i

/-- A word that decodes is the one word of its command, and the command is well formed: no two encodings
of one command (30_encoding.md R54, decision D7). -/
def Obligations.DecodedCommandHasOnlyThatWord : Prop :=
  ∀ (w : CmdWord) (i : Instr), decode w = .ok i → i.wellFormed = true ∧ encode i = w

/-- A word decodes to a command of opcode `op` exactly when it matches one of that opcode's rows in the
match and mask table (30_encoding.md R52). -/
def Obligations.DecodeAgreesWithMatchMaskTable : Prop :=
  ∀ (w : CmdWord) (op : Opcode),
    (∃ i, decode w = .ok i ∧ i.opcode = op) ↔ ∃ r ∈ opcodeTable, r.op = op ∧ r.hit w = true

/-- No two rows of the table match the same word (30_encoding.md R52). -/
def Obligations.NoWordMatchesTwoTableRows : Prop :=
  ∀ (w : CmdWord) (r1 r2 : TableRow), r1 ∈ opcodeTable → r2 ∈ opcodeTable →
    r1.hit w = true → r2.hit w = true → r1 = r2

/-- The number of legal words is 62720 (30_encoding.md R52). -/
def Obligations.LegalWordsNumber62720 : Prop :=
  Set.ncard { w : CmdWord | ∃ i, decode w = .ok i } = 62720

/-- The checks of 30_encoding.md R53, R54 and R56 in their order, on the bits of the word, with the code of
each cause (60_exceptions.md R84, R86). -/
def Obligations.DecodeReportsTheFirstFailedCheck : Prop :=
  ∀ w : CmdWord,
    let op := w.extractLsb' 28 4
    let rs2 := w.extractLsb' 16 4
    let z := w.extractLsb' 6 10
    let amt := w.extractLsb' 0 6
    let reserved := op ∈ [0x0#4, 0xD#4, 0xE#4, 0xF#4]
    let unreadNonzero :=
      (op ∈ [0x1#4, 0x2#4, 0x5#4, 0x6#4, 0x7#4] ∧ (z ≠ 0 ∨ amt ≠ 0)) ∨
      (op ∈ [0x3#4, 0x4#4, 0x8#4, 0x9#4] ∧ (rs2 ≠ 0 ∨ z ≠ 0 ∨ amt ≠ 0)) ∨
      (op ∈ [0xA#4, 0xB#4, 0xC#4] ∧ (rs2 ≠ 0 ∨ z ≠ 0))
    let shlFar := op = 0xC#4 ∧ 32 < amt.toNat
    (reserved → decode w = .error .reservedOpcode) ∧
    (¬ reserved → unreadNonzero → decode w = .error .nonzeroReservedField) ∧
    (¬ reserved → ¬ unreadNonzero → shlFar → decode w = .error .shlAmountRange) ∧
    (¬ reserved → ¬ unreadNonzero → ¬ shlFar → ∃ i, decode w = .ok i) ∧
    decode 0 = .error .reservedOpcode ∧
    causeCode .reservedOpcode = 1 ∧ causeCode .nonzeroReservedField = 2 ∧ causeCode .shlAmountRange = 3

/-- Format C: the word is `OP<<28 | RD<<24 | RS1<<20 | RS2<<16 | Z<<6 | AMT`, its bit fields read back as
what was put in, and `Z` is zero in every command (30_encoding.md R48). -/
def Obligations.FormatCWordIsTheShiftedFields : Prop :=
  (∀ (op : BitVec 4) (rd rs1 rs2 : RegIdx) (z : BitVec 10) (n : Amount),
    let w := formatC op rd rs1 rs2 z n
    w.toNat = op.toNat <<< 28 ||| rd.val <<< 24 ||| rs1.val <<< 20 ||| rs2.val <<< 16 |||
      z.toNat <<< 6 ||| n.val ∧
    w.extractLsb' 28 4 = op ∧ (w.extractLsb' 24 4).toNat = rd.val ∧
    (w.extractLsb' 20 4).toNat = rs1.val ∧ (w.extractLsb' 16 4).toNat = rs2.val ∧
    w.extractLsb' 6 10 = z ∧ (w.extractLsb' 0 6).toNat = n.val) ∧
  ∀ i : Instr, (encode i).extractLsb' 6 10 = 0

/-! ### The adder (41_adder.md) -/

/-- ADD completes and writes the sum modulo 2^64, for every choice of registers (R60, R61). -/
def Obligations.AddWritesSumModulo2Pow64 : Prop :=
  ∀ (rd rs1 rs2 : RegIdx) (s : State),
    exec (.add rd rs1 rs2) s =
      .next (s.writeV rd (Value.ofNat (((s.readV rs1).val + (s.readV rs2).val) % 2 ^ 64)))

/-- SUB completes and writes the difference modulo 2^64 (R62). -/
def Obligations.SubWritesDifferenceModulo2Pow64 : Prop :=
  ∀ (rd rs1 rs2 : RegIdx) (s : State),
    exec (.sub rd rs1 rs2) s =
      .next (s.writeV rd (Value.ofNat (((s.readV rs1).val + (2 ^ 64 - (s.readV rs2).val)) % 2 ^ 64)))

/-- NEG completes and writes the two's-complement negation (R63). -/
def Obligations.NegWritesTwosComplement : Prop :=
  ∀ (rd rs1 : RegIdx) (s : State),
    exec (.neg rd rs1) s = .next (s.writeV rd (Value.ofNat ((2 ^ 64 - (s.readV rs1).val) % 2 ^ 64)))

/-- INC completes and writes the successor modulo 2^64 (R64). -/
def Obligations.IncWritesSuccessorModulo2Pow64 : Prop :=
  ∀ (rd rs1 : RegIdx) (s : State),
    exec (.inc rd rs1) s = .next (s.writeV rd (Value.ofNat (((s.readV rs1).val + 1) % 2 ^ 64)))

/-- The properties of the adder family that the document states (R65), of the functions and of SUB and NEG
as commands. -/
def Obligations.AdderObeysTheDocumentsLaws : Prop :=
  (∀ a b : Value, add64 a b = add64 b a) ∧
  (∀ a b c : Value, add64 (add64 a b) c = add64 a (add64 b c)) ∧
  (∀ a : Value, add64 a Value.zero = a) ∧
  (∀ a b : Value, sub64 a b = add64 a (neg64 b)) ∧
  (∀ a : Value, sub64 a a = Value.zero) ∧
  (∀ a : Value, neg64 (neg64 a) = a) ∧
  (∀ (rd r : RegIdx) (s : State), exec (.sub rd r r) s = .next (s.writeV rd Value.zero)) ∧
  ∀ (r : RegIdx) (s : State), ∃ t, exec (.neg r r) s = .next t ∧ exec (.neg r r) t = .next s

/-- No result of the adder family (R66) and of the bitwise family (43_bitwise.md R76) fails or is
signalled: the command completes, and `STATUS`, `ERRCMD` and `err_out` are as before. -/
def Obligations.ResultsAreNeverSignalled : Prop :=
  ∀ (i : Instr) (s : State),
    i.opcode ∈ [.add, .sub, .neg, .inc, .xor, .and, .not, .mod2] →
      ∃ t, exec i s = .next t ∧ t.status = s.status ∧ t.errcmd = s.errcmd ∧ t.errOut = s.errOut

/-! ### The multiplier (42_multiplier.md) -/

/-- MUL completes and writes the product modulo 2^64 (R67, R68). -/
def Obligations.MulWritesProductModulo2Pow64 : Prop :=
  ∀ (rd rs1 rs2 : RegIdx) (s : State),
    exec (.mul rd rs1 rs2) s =
      .next (s.writeV rd (Value.ofNat (((s.readV rs1).val * (s.readV rs2).val) % 2 ^ 64)))

/-- When both operands have `hi = 0` the product is the exact 32 x 32 to 64 one; otherwise it is the product
modulo 2^64; and the low 64 bits are the same for the signed reading (R69). -/
def Obligations.MulOfLowHalvesIsExact : Prop :=
  (∀ a b : Value, a.hi = 0 → b.hi = 0 →
    a.val * b.val < 2 ^ 64 ∧ (mul64 a b).val = a.val * b.val ∧
    (mul64 a b).hi.toNat = (a.lo.toNat * b.lo.toNat) >>> 32 ∧
    (mul64 a b).lo.toNat = (a.lo.toNat * b.lo.toNat) % 2 ^ 32) ∧
  ∀ a b : Value, (mul64 a b).val = (a.val * b.val) % 2 ^ 64 ∧
    ((mul64 a b).val : Int) % 2 ^ 64 = (a.sval * b.sval) % 2 ^ 64

/-- The early exit of the multiplier gives the value of the general path (R67). -/
def Obligations.MulEarlyExitAgreesWithColumns : Prop :=
  ∀ a b : Value, mul64 a b = mulColumns a b

/-! ### The bitwise unit (43_bitwise.md) -/

/-- XOR completes and writes the exclusive or of the two values (R71, R72). -/
def Obligations.XorWritesExclusiveOr : Prop :=
  ∀ (rd rs1 rs2 : RegIdx) (s : State),
    exec (.xor rd rs1 rs2) s =
      .next (s.writeV rd (Value.ofNat ((s.readV rs1).val ^^^ (s.readV rs2).val)))

/-- AND completes and writes the conjunction of the two values (R71, R73). -/
def Obligations.AndWritesConjunction : Prop :=
  ∀ (rd rs1 rs2 : RegIdx) (s : State),
    exec (.and rd rs1 rs2) s =
      .next (s.writeV rd (Value.ofNat ((s.readV rs1).val &&& (s.readV rs2).val)))

/-- NOT completes and writes `2^64 - 1 - val(a)` (R71, R74). -/
def Obligations.NotWritesComplement : Prop :=
  ∀ (rd rs1 : RegIdx) (s : State),
    exec (.not rd rs1) s = .next (s.writeV rd (Value.ofNat (2 ^ 64 - 1 - (s.readV rs1).val)))

/-- MOD2 completes and writes `ONE` for an odd value, `ZERO` for an even one (R75). -/
def Obligations.Mod2WritesTheLowestBit : Prop :=
  ∀ (rd rs1 : RegIdx) (s : State),
    exec (.mod2 rd rs1) s =
      .next (s.writeV rd (if (s.readV rs1).val % 2 = 1 then Value.one else Value.zero))

/-! ### The rotator (44_rotate.md) -/

/-- ROTL completes for every amount 0..63 and writes the 64-bit rotation to the left (R77, R78). -/
def Obligations.RotlWritesLeftRotation : Prop :=
  ∀ (rd rs1 : RegIdx) (n : Amount) (s : State),
    exec (.rotl rd rs1 n) s =
      .next (s.writeV rd (Value.ofNat
        (((s.readV rs1).val <<< n.val ||| (s.readV rs1).val >>> (64 - n.val)) % 2 ^ 64)))

/-- ROTR completes for every amount 0..63 and writes the 64-bit rotation to the right, with no sign fill
(R77, R79, R82). -/
def Obligations.RotrWritesRightRotation : Prop :=
  ∀ (rd rs1 : RegIdx) (n : Amount) (s : State),
    exec (.rotr rd rs1 n) s =
      .next (s.writeV rd (Value.ofNat
        (((s.readV rs1).val >>> n.val ||| (s.readV rs1).val <<< (64 - n.val)) % 2 ^ 64)))

/-- SHL completes for every amount 0..32 and writes the logical shift to the left (R80). -/
def Obligations.ShlUpTo32WritesLogicalShift : Prop :=
  ∀ (rd rs1 : RegIdx) (n : Amount) (s : State), n.val ≤ 32 →
    exec (.shl rd rs1 n) s = .next (s.writeV rd (Value.ofNat (((s.readV rs1).val <<< n.val) % 2 ^ 64)))

/-- SHL by 33..63 takes IllegalCommand with cause 3 and writes no register (R80, 60_exceptions.md R85); the
word recorded is the command's own (the model's reading, log entry 6). -/
def Obligations.ShlAbove32RaisesIllegalCommand : Prop :=
  ∀ (rd rs1 : RegIdx) (n : Amount) (s : State), 32 < n.val →
    ∃ t, exec (.shl rd rs1 n) s = .next t ∧ t.regs = s.regs ∧
      (statusErr s.status = 0 → statusErr t.status = 1 ∧ statusCause t.status = 3 ∧
        t.errcmd.toNat = 0xC <<< 28 ||| rd.val <<< 24 ||| rs1.val <<< 20 ||| n.val) ∧
      (statusErr s.status = 1 → t = s)

/-- Rotating right and then left by the same amount, and the other way round, gives the value back; by 0
nothing changes, by 32 the halves are swapped (R81). -/
def Obligations.RotationsUndoEachOther : Prop :=
  (∀ (a : Value) (n : Amount), rotl64 (rotr64 a n.val) n.val = a ∧ rotr64 (rotl64 a n.val) n.val = a) ∧
  ∀ a : Value, rotl64 a 0 = a ∧ rotl64 a 32 = ⟨a.lo, a.hi⟩

/-- A rotation to the right is the complement rotation to the left (R77). -/
def Obligations.RotrIsTheComplementRotl : Prop :=
  ∀ (a : Value) (n : Amount), rotr64 a n.val = rotl64 a ((64 - n.val) % 64)

/-! ### Registers and frames -/

/-- A register reads as what was last written to it, the others as before, `V0` like any other
(10_state.md R15). -/
def Obligations.RegisterReadsWhatWasWritten : Prop :=
  ∀ (s : State) (r q : RegIdx) (v : Value),
    (s.writeV r v).readV q = if q = r then v else s.readV q

/-- The frame of every command: all registers but its destination, what the host has yet to do and what it
has received are unchanged, and so are `STATUS` and `ERRCMD` unless the command is SHL with an amount above
32, which changes no register at all (20_memory.md R29, 10_state.md R17, R18). -/
def Obligations.CommandChangesOnlyItsDestination : Prop :=
  ∀ (i : Instr) (s t : State), exec i s = .next t →
    (∀ r, r ≠ i.dest → t.readV r = s.readV r) ∧
    t.inbox = s.inbox ∧ t.responses = s.responses ∧
    (i.wellFormed = true → t.status = s.status ∧ t.errcmd = s.errcmd) ∧
    (i.wellFormed = false → t.regs = s.regs)

/-- A command's result depends on its source registers only: on no other register, not on the error
registers, not on the port (10_state.md R15, R22). -/
def Obligations.ResultDependsOnSourcesOnly : Prop :=
  ∀ (i : Instr) (s s' : State), i.wellFormed = true → (∀ r ∈ i.sources, s.readV r = s'.readV r) →
    ∃ t t', exec i s = .next t ∧ exec i s' = .next t' ∧ t.readV i.dest = t'.readV i.dest

/-! ### The exception (60_exceptions.md, 10_state.md) -/

/-- Error recording, at the step that meets an illegal command: the first error sets `ERR`, `CAUSE` and
`ERRCMD`; a later one changes nothing; no register is written and the response is `(0, 0)` either way
(R85). That the first error leaves bits 31:4 of `STATUS` as they are is the model's reading of
10_state.md R18 (log entry 7). -/
def Obligations.IllegalCommandRecordsTheFirstError : Prop :=
  ∀ (s : State) (q : Request) (rest : List HostEvent) (cause : IllegalCause),
    s.inbox = .request q :: rest → q.kind = 0b00 → decode q.cmd = .error cause →
    ∃ t, step s = .next t ∧ t.regs = s.regs ∧ t.inbox = rest ∧
      t.responses = s.responses ++ [⟨0, 0⟩] ∧
      (statusErr s.status = 0 → statusErr t.status = 1 ∧ statusCause t.status = causeCode cause ∧
        statusReserved t.status = statusReserved s.status ∧ t.errcmd = q.cmd ∧ t.errOut = 1) ∧
      (statusErr s.status = 1 → t.status = s.status ∧ t.errcmd = s.errcmd)

/-- Which words raise which cause, and what is recorded, on a machine without an error (R84). -/
def Obligations.EachCauseIsRecordedWithItsWord : Prop :=
  ∀ (s : State) (q : Request) (rest : List HostEvent),
    s.inbox = .request q :: rest → q.kind = 0b00 → s.status = 0 →
    let op := q.cmd.extractLsb' 28 4
    let rs2 := q.cmd.extractLsb' 16 4
    let z := q.cmd.extractLsb' 6 10
    let amt := q.cmd.extractLsb' 0 6
    let reserved := op ∈ [0x0#4, 0xD#4, 0xE#4, 0xF#4]
    let unreadNonzero :=
      z ≠ 0 ∨ (amt ≠ 0 ∧ op ∉ [0xA#4, 0xB#4, 0xC#4]) ∨
        (rs2 ≠ 0 ∧ op ∈ [0x3#4, 0x4#4, 0x8#4, 0x9#4, 0xA#4, 0xB#4, 0xC#4])
    let shlFar := op = 0xC#4 ∧ 33 ≤ amt.toNat
    (reserved → ∃ t, step s = .next t ∧ t.status = 0x3 ∧ t.errcmd = q.cmd) ∧
    (¬ reserved → unreadNonzero → ∃ t, step s = .next t ∧ t.status = 0x5 ∧ t.errcmd = q.cmd) ∧
    (¬ reserved → ¬ unreadNonzero → shlFar →
      ∃ t, step s = .next t ∧ t.status = 0x7 ∧ t.errcmd = q.cmd)

/-- After an illegal command the block goes on as if none had occurred: legal commands, WR and RD do and
answer the same whatever the error registers hold and leave them alone, RDSTAT reports them, and a second
illegal command changes nothing (R89). -/
def Obligations.ErrorDoesNotAffectLaterRequests : Prop :=
  ∀ (q : Request) (s : State) (status errcmd : BitVec 32),
    (q.illegal = none → q.kind ≠ 0b11 →
      ∃ t r, serve q s = .next (t, r) ∧
        serve q { s with status := status, errcmd := errcmd } =
          .next ({ t with status := status, errcmd := errcmd }, r)) ∧
    (q.kind = 0b11 → serve q s = .next (s, ⟨s.errcmd, s.status⟩)) ∧
    (q.illegal ≠ none → statusErr s.status = 1 → serve q s = .next (s, ⟨0, 0⟩))

/-- `STATUS` and `ERRCMD` change only at a reset, or at the first illegal command: a CMD request whose word
decodes as illegal, met while `ERR` is 0 (R83, 10_state.md R18). -/
def Obligations.OnlyFirstIllegalCommandOrResetChangesStatus : Prop :=
  ∀ s t : State, step s = .next t → (t.status ≠ s.status ∨ t.errcmd ≠ s.errcmd) →
    (∃ fl rest, s.inbox = .reset fl :: rest) ∨
    ∃ q rest cause, s.inbox = .request q :: rest ∧ q.kind = 0b00 ∧ decode q.cmd = .error cause ∧
      statusErr s.status = 0

/-- Every step keeps the error registers legal (10_state.md R18, R19, R20). -/
def Obligations.EveryStepKeepsStatusLegal : Prop :=
  ∀ s t : State, s.statusLegal = true → step s = .next t → t.statusLegal = true

/-- The error registers are legal at reset. -/
def Obligations.StatusLegalAtReset : Prop := State.reset.statusLegal = true

/-- Over any list of host events from a state without an error, the error registers hold the first illegal
command since the last reset, and zero when there is none (10_state.md R19, R20). -/
def Obligations.ErrorRegistersHoldFirstIllegalSinceReset : Prop :=
  ∀ (s : State) (es : List HostEvent), s.status = 0 → s.errcmd = 0 →
    ∃ t, s.serveAll es = .next t ∧ t.holdsRecord (firstIllegal none es)

/-! ### Reset (70_reset_and_hazards.md, 10_state.md) -/

/-- The state after reset: every register `ZERO`, written or not, `STATUS`, `ERRCMD` and `err_out` zero
(10_state.md R24). -/
def Obligations.StateAfterReset : Prop :=
  (∀ r : RegIdx, (State.reset.readV r).hi = 0 ∧ (State.reset.readV r).lo = 0) ∧
  State.reset.status = 0 ∧ State.reset.errcmd = 0 ∧ State.reset.errOut = 0

/-- Reset (R97): the reset state is entered, a request in flight is abandoned without response or effect,
and at the port `req_ready` is 0, nothing is accepted, and a request not yet giving its response gives
none. That the responses already given stay is the model's reading (log entry 4), and so are the port
that is ready after the edge and its counter of accepted requests (log entry 10). -/
def Obligations.ResetEntersTheResetState : Prop :=
  (∀ (s : State) (inFlight : Option Request) (rest : List HostEvent),
    s.inbox = .reset inFlight :: rest →
      ∃ t, step s = .next t ∧ (∀ r, t.readV r = ⟨0, 0⟩) ∧ t.status = 0 ∧ t.errcmd = 0 ∧ t.errOut = 0 ∧
        t.responses = s.responses) ∧
  ∀ (p : Port) (inp : PortIn), inp.rst = true →
    (p.out inp.rst).reqReady = false ∧
    ∃ p', p.clock inp = .next p' ∧ (∀ r, p'.block.readV r = ⟨0, 0⟩) ∧ p'.block.status = 0 ∧
      p'.block.errcmd = 0 ∧ (p'.out false).errOut = 0 ∧ p'.phase = .ready ∧ p'.accepted = p.accepted ∧
      (p.presenting = none → (p.out inp.rst).rsp = none ∧ p'.block.responses = p.block.responses)

/-! ### Requests and steps (20_memory.md) -/

/-- A step runs the decoded command: when the next event is a CMD request whose word decodes to `i`, the step
is `exec i` on the state without that event, then the response `(0, 0)` (R28, R29). -/
def Obligations.StepRunsTheDecodedCommand : Prop :=
  ∀ (s : State) (q : Request) (rest : List HostEvent) (i : Instr),
    s.inbox = .request q :: rest → q.kind = 0b00 → decode q.cmd = .ok i →
    ∃ t, exec i { s with inbox := rest } = .next t ∧
      step s = .next { t with responses := t.responses ++ [⟨0, 0⟩] }

/-- WR writes both halves of the register it names, answers `(0, 0)` and changes nothing else (R31). -/
def Obligations.WrWritesBothHalves : Prop :=
  ∀ (s : State) (q : Request) (rest : List HostEvent),
    s.inbox = .request q :: rest → q.kind = 0b01 →
    ∃ t, step s = .next t ∧ t.inbox = rest ∧ t.responses = s.responses ++ [⟨0, 0⟩] ∧
      (∀ r : RegIdx, t.readV r = if r.val = q.idx.toNat then ⟨q.hi, q.lo⟩ else s.readV r) ∧
      t.status = s.status ∧ t.errcmd = s.errcmd

/-- RD answers the register it names and changes nothing, so reading twice gives the same value (R32). -/
def Obligations.RdAnswersTheRegister : Prop :=
  ∀ (s : State) (q : Request) (rest : List HostEvent) (r : RegIdx),
    s.inbox = .request q :: rest → q.kind = 0b10 → r.val = q.idx.toNat →
    step s = .next { s with
      inbox := rest, responses := s.responses ++ [⟨(s.readV r).hi, (s.readV r).lo⟩] }

/-- RDSTAT answers `(ERRCMD, STATUS)` and changes nothing; it does not clear the status (R33). -/
def Obligations.RdstatAnswersTheErrorRegisters : Prop :=
  ∀ (s : State) (q : Request) (rest : List HostEvent),
    s.inbox = .request q :: rest → q.kind = 0b11 →
    step s = .next { s with inbox := rest, responses := s.responses ++ [⟨s.errcmd, s.status⟩] }

/-- An RD after a WR of the same register answers what was written, for all pairs of halves
(95_test_vectors.md Q1). -/
def Obligations.WrThenRdAnswersTheValue : Prop :=
  ∀ (s : State) (r : RegIdx) (v : Value),
    ∃ t, s.serveAll [.request (Request.ofWr r v), .request (Request.ofRd r)] = .next t ∧
      t.responses = s.responses ++ [⟨0, 0⟩, ⟨v.hi, v.lo⟩]

/-- Request fields that a kind does not use change nothing, neither the state nor the response (R27). -/
def Obligations.UnusedRequestFieldsAreIgnored : Prop :=
  ∀ (q q' : Request) (s : State), q.kind = q'.kind →
    (q.kind = 0b00 → q.cmd = q'.cmd) →
    (q.kind = 0b01 → q.idx = q'.idx ∧ q.hi = q'.hi ∧ q.lo = q'.lo) →
    (q.kind = 0b10 → q.idx = q'.idx) →
    serve q s = serve q' s

/-- No step stops: every host event, legal or not, from every state, is handled (00_scope.md R9,
60_exceptions.md R83, R89). That the step with no event waiting is an idle one is the model's reading
(20_memory.md R25, 60_exceptions.md R96; log entry 3). -/
def Obligations.EveryStepAnswersANextState : Prop := ∀ s : State, ∃ t, step s = .next t

/-- Each request gives exactly one response and a reset gives none (R28): the responses after serving a list
extend those before, by as many as the list has requests. (That a reset leaves the
responses already given, and the events still to come, is the model's reading, log entry 4.) -/
def Obligations.EachRequestGivesOneResponse : Prop :=
  ∀ (s : State) (es : List HostEvent),
    ∃ t rs, s.serveAll es = .next t ∧ t.inbox = [] ∧ t.responses = s.responses ++ rs ∧
      rs.length = (es.filter HostEvent.isRequest).length

/-- A request observes all requests before it and none after it (R40): serving the events of a prefix does
not depend on the events that follow, and what follows starts from the state the prefix left. That the
same holds of a reset among the events, which leaves the events behind it, is the model's reading (log
entry 4). -/
def Obligations.RequestsObserveExactlyTheEarlierOnes : Prop :=
  ∀ (s : State) (before after : List HostEvent),
    ∃ t, s.serveAll before = .next t ∧
      Sys2Proof.core.run before.length { s with inbox := before ++ after } = .next { t with inbox := after } ∧
      s.serveAll (before ++ after) = t.serveAll after

/-! ### Notation (30_encoding.md R58, R59, 00_scope.md R12, 20_memory.md R39) -/

/-- The expansions of the pseudo-instructions have the effects the assembler promises (R59). -/
def Obligations.PseudoInstructionsHaveTheirEffects : Prop :=
  (∀ (s : State) (vd vs : RegIdx), ∃ t, s.serveAll (cmdEvents (expand (.mov vd vs))) = .next t ∧
    (∀ r, t.readV r = if r = vd then s.readV vs else s.readV r)) ∧
  (∀ (s : State) (vd vs : RegIdx), ∃ t, s.serveAll (cmdEvents (expand (.swaph vd vs))) = .next t ∧
    (∀ r, t.readV r = if r = vd then ⟨(s.readV vs).lo, (s.readV vs).hi⟩ else s.readV r)) ∧
  (∀ (s : State) (vd : RegIdx), ∃ t, s.serveAll (cmdEvents (expand (.clr vd))) = .next t ∧
    (∀ r, t.readV r = if r = vd then ⟨0, 0⟩ else s.readV r)) ∧
  (∀ s : State, ∃ t, s.serveAll (cmdEvents (expand .nop)) = .next t ∧
    (∀ r, t.readV r = s.readV r) ∧ t.status = s.status ∧ t.errcmd = s.errcmd) ∧
  ∀ (s : State) (vd : RegIdx), ∃ t, s.serveAll (cmdEvents (expand (.ldone vd))) = .next t ∧
    (∀ r, t.readV r = if r = vd then ⟨0, 1⟩ else s.readV r)

/-- The three example lines of the assembler syntax, with their words (R58). -/
def Obligations.SampleListingsAndWords : Prop :=
  listing (.add 3 1 2) = "add v3, v1, v2" ∧ encode (.add 3 1 2) = 0x13120000 ∧
  listing (.neg 2 1) = "neg v2, v1" ∧ encode (.neg 2 1) = 0x32100000 ∧
  listing (.rotl 4 1 16) = "rotl v4, v1, 16" ∧ encode (.rotl 4 1 16) = 0xA4100010

/-- The number views of a value: `val` is below 2^64, `sval` is the number in [-2^63, 2^63) of the same bits,
`U` gives the value back from either, and `U` of any integer, a negative one too, has `val` its remainder
modulo 2^64 (00_scope.md R12). -/
def Obligations.NumberViewsOfAValueAgree : Prop :=
  (∀ v : Value, v.val < 2 ^ 64 ∧ Value.ofNat v.val = v ∧ -(2 ^ 63 : Int) ≤ v.sval ∧ v.sval < 2 ^ 63 ∧
    v.sval % 2 ^ 64 = v.val ∧ Value.ofInt v.sval = v) ∧
  (∀ n : Int, ((Value.ofInt n).val : Int) = n % 2 ^ 64) ∧
  ∀ n : Nat, (Value.ofNat n).val = n % 2 ^ 64

/-- The serialised form is the eight bytes of the number, the most significant first, and reads back as the
value (20_memory.md R39, 00_scope.md R12). -/
def Obligations.SerialisedFormIsBigEndian : Prop :=
  ∀ v : Value, v.toBytes.length = 8 ∧ v.toBytes.foldl (fun n b => n * 256 + b.toNat) 0 = v.val ∧
    Value.ofBytes v.toBytes = some v

/-! ### Several masters and the clocked port (20_memory.md R25, R26, 60_exceptions.md R94) -/

/-- Exclusive registers: if one master's requests use only registers of a set, and the other masters write
none of them, then under every arbitration those registers end as if that master had the block to
itself (R94). -/
def Obligations.ExclusiveRegistersAreIsolatedUnderAnyArbitration : Prop :=
  ∀ (own : RegIdx → Bool) (ms : List (List HostEvent)) (es mine : List HostEvent) (k : Nat) (s : State),
    ArbOrder ms es → ms[k]? = some mine → (∀ e ∈ mine, e.staysWithin own = true) →
    (∀ j m, j ≠ k → ms[j]? = some m → ∀ e ∈ m, e.writesOutside own = true) →
    ∃ t u, s.serveAll es = .next t ∧ s.serveAll mine = .next u ∧
      ∀ r, own r = true → t.readV r = u.readV r

/-- The port carries one request as the step performs it: a request accepted by a ready port is answered
after exactly its latency, whatever that is for this request and this block (R102), and whether its effect
shows with the response or not; it is presented in that one cycle; meanwhile `req_ready` is 0 and what
the host presents is not accepted; then the port is ready and the block is as one step leaves it (R26, R28, R102; log entries 10 and 11). -/
def Obligations.PortCarriesOneRequestAsOneStep : Prop :=
  ∀ (p : Port) (inp : PortIn) (ins : List PortIn) (held : Request),
    p.phase = .ready → inp.rst = false → inp.reqValid = true →
    (p.waiting = none ∨ p.waiting = some inp.req) →
    ins.length = Config.rspLatency p.accepted inp.req p.block →
    (∀ i ∈ ins, i.rst = false ∧ (i.reqValid = true → i.req = held)) →
    ∃ p' outs r,
      p.cycles (inp :: ins) = .next (p', outs) ∧
      p'.phase = .ready ∧ p'.accepted = p.accepted + 1 ∧
      step { p.block with inbox := [.request inp.req] } = .next { p'.block with inbox := [] } ∧
      p'.block.responses = p.block.responses ++ [r] ∧
      outs.map PortOut.rsp = List.replicate ins.length none ++ [some r] ∧
      outs.map PortOut.reqReady = true :: List.replicate ins.length false

/-- A request abandoned by a reset is not observable: from its acceptance to the resetting edge no response
is presented and `err_out` stays as it was, and the block is then as a reset without the request leaves
it. The one other case is a reset in the very cycle of the response, where the response may count as
given (R97, 93_implementation_defined.md U8; log entries 10, 11 and 12). -/
def Obligations.AbandonedRequestIsNotObservable : Prop :=
  ∀ (p : Port) (inp last : PortIn) (ins : List PortIn) (held : Request),
    p.phase = .ready → inp.rst = false → inp.reqValid = true →
    (p.waiting = none ∨ p.waiting = some inp.req) →
    ins.length < Config.rspLatency p.accepted inp.req p.block → last.rst = true →
    (∀ i ∈ ins, i.rst = false ∧ (i.reqValid = true → i.req = held)) →
    ∃ p' outs,
      p.cycles (inp :: ins ++ [last]) = .next (p', outs) ∧ p'.phase = .ready ∧
      (((∀ o ∈ outs, o.rsp = none ∧ o.errOut = p.block.errOut) ∧ p'.block = p.block.applyReset) ∨
       (ins.length + 1 = Config.rspLatency p.accepted inp.req p.block ∧
        Config.answersAtReset p.accepted inp.req p.block = true ∧
        ∃ r, outs.map PortOut.rsp = List.replicate (ins.length + 1) none ++ [some r] ∧
          p'.block = (p.block.respond r).applyReset))

/-- While `req_ready` is 0 no request is accepted, and in every cycle `err_out` is `STATUS.ERR` (R26, R34,
10_state.md R21). -/
def Obligations.PortAcceptsOnlyWhenReady : Prop :=
  ∀ (p p' : Port) (inp : PortIn), p.clock inp = .next p' →
    (p.out inp.rst).errOut = p.block.status.extractLsb' 0 1 ∧
    (p'.accepted = p.accepted + 1 ↔ (p.out inp.rst).reqReady = true ∧ inp.reqValid = true) ∧
    (p'.accepted = p.accepted ∨ p'.accepted = p.accepted + 1)

/-- Every clock edge keeps the port legal: a request in flight has cycles left and no effect before the cycle
of its response (R26, 70_reset_and_hazards.md R97; log entry 11). -/
def Obligations.EveryClockEdgeKeepsThePortLegal : Prop :=
  ∀ (p p' : Port) (inp : PortIn), p.legal = true → p.clock inp = .next p' → p'.legal = true

/-- The port is legal at reset. -/
def Obligations.PortLegalAtReset : Prop := Port.reset.legal = true

/-- The clocked port stops only where the host changes a request it holds (93_implementation_defined.md U7;
the stop is the model's choice, log entry 13). -/
def Obligations.PortStopsOnlyWhenTheHostChangesARequest : Prop :=
  ∀ (p : Port) (inp : PortIn),
    (∃ p', p.clock inp = .next p') ∨
    (p.clock inp = .fault .hostChangedRequest ∧ inp.rst = false ∧ inp.reqValid = true ∧
      ∃ held, p.waiting = some held ∧ held ≠ inp.req)
end

