-- ==== Sys2Proof/Laws/Encoding.lean ====
section
/-! SUPPORT. The fields of a format C word read back as what was put in, the opcode map is inverted by the
opcode's bits, and what decoding can answer. Proofs about encodings cite these and never unfold the
concatenation. -/

namespace Sys2Proof

/-- Concatenation as arithmetic. -/
theorem toNat_append_add {n m : Nat} (x : BitVec n) (y : BitVec m) :
    (x ++ y).toNat = x.toNat * 2 ^ m + y.toNat := by
  rw [BitVec.toNat_append, ← Nat.shiftLeft_add_eq_or_of_lt y.isLt, Nat.shiftLeft_eq]

theorem formatC_toNat (op : BitVec 4) (rd rs1 rs2 : RegIdx) (z : BitVec 10) (n : Amount) :
    (formatC op rd rs1 rs2 z n).toNat = op.toNat * 2 ^ 28 + rd.val * 2 ^ 24 + rs1.val * 2 ^ 20 +
      rs2.val * 2 ^ 16 + z.toNat * 2 ^ 6 + n.val := by
  unfold formatC
  refine (toNat_append_add (op ++ BitVec.ofFin (w := 4) rd ++ BitVec.ofFin (w := 4) rs1 ++
    BitVec.ofFin (w := 4) rs2 ++ z) (BitVec.ofFin (w := 6) n)).trans ?_
  simp only [toNat_append_add]
  have hrd : (BitVec.ofFin (w := 4) rd).toNat = rd.val := rfl
  have hrs1 : (BitVec.ofFin (w := 4) rs1).toNat = rs1.val := rfl
  have hrs2 : (BitVec.ofFin (w := 4) rs2).toNat = rs2.val := rfl
  have hn : (BitVec.ofFin (w := 6) n).toNat = n.val := rfl
  rw [hrd, hrs1, hrs2, hn]
  ring

/-! ### The fields, as numbers -/

theorem opField_toNat (w : CmdWord) : (opField w).toNat = w.toNat / 2 ^ 28 % 16 := by
  simp [opField, BitVec.extractLsb'_toNat, Nat.shiftRight_eq_div_pow]

theorem rdField_val (w : CmdWord) : (rdField w).val = w.toNat / 2 ^ 24 % 16 := by
  change (w.extractLsb' 24 4).toNat = _
  simp [BitVec.extractLsb'_toNat, Nat.shiftRight_eq_div_pow]

theorem rs1Field_val (w : CmdWord) : (rs1Field w).val = w.toNat / 2 ^ 20 % 16 := by
  change (w.extractLsb' 20 4).toNat = _
  simp [BitVec.extractLsb'_toNat, Nat.shiftRight_eq_div_pow]

theorem rs2Field_val (w : CmdWord) : (rs2Field w).val = w.toNat / 2 ^ 16 % 16 := by
  change (w.extractLsb' 16 4).toNat = _
  simp [BitVec.extractLsb'_toNat, Nat.shiftRight_eq_div_pow]

theorem zField_toNat (w : CmdWord) : (zField w).toNat = w.toNat / 2 ^ 6 % 1024 := by
  simp [zField, BitVec.extractLsb'_toNat, Nat.shiftRight_eq_div_pow]

theorem amtField_val (w : CmdWord) : (amtField w).val = w.toNat % 64 := by
  change (w.extractLsb' 0 6).toNat = _
  simp [BitVec.extractLsb'_toNat]

/-- A word is the format C word of its six fields. -/
theorem formatC_fields (w : CmdWord) :
    formatC (opField w) (rdField w) (rs1Field w) (rs2Field w) (zField w) (amtField w) = w := by
  apply BitVec.eq_of_toNat_eq
  have := w.isLt
  rw [formatC_toNat, opField_toNat, rdField_val, rs1Field_val, rs2Field_val, zField_toNat, amtField_val]
  omega

/-! ### The fields of a format C word -/

section
variable (op : BitVec 4) (rd rs1 rs2 : RegIdx) (z : BitVec 10) (n : Amount)

theorem opField_formatC : opField (formatC op rd rs1 rs2 z n) = op := by
  apply BitVec.eq_of_toNat_eq
  have := op.isLt
  rw [opField_toNat, formatC_toNat]
  omega

theorem rdField_formatC : rdField (formatC op rd rs1 rs2 z n) = rd := by
  apply Fin.ext
  have := rd.isLt
  have := op.isLt
  rw [rdField_val, formatC_toNat]
  omega

theorem rs1Field_formatC : rs1Field (formatC op rd rs1 rs2 z n) = rs1 := by
  apply Fin.ext
  have := rs1.isLt
  have := op.isLt
  rw [rs1Field_val, formatC_toNat]
  omega

theorem rs2Field_formatC : rs2Field (formatC op rd rs1 rs2 z n) = rs2 := by
  apply Fin.ext
  have := rs2.isLt
  have := op.isLt
  rw [rs2Field_val, formatC_toNat]
  omega

theorem zField_formatC : zField (formatC op rd rs1 rs2 z n) = z := by
  apply BitVec.eq_of_toNat_eq
  have := z.isLt
  rw [zField_toNat, formatC_toNat]
  omega

theorem amtField_formatC : amtField (formatC op rd rs1 rs2 z n) = n := by
  apply Fin.ext
  have := n.isLt
  rw [amtField_val, formatC_toNat]
  omega

end

/-! ### The opcode map -/

theorem ofBits_bits (op : Opcode) : Opcode.ofBits op.bits = some op := by cases op <;> rfl

theorem bits_of_ofBits : ∀ (b : BitVec 4) (op : Opcode), Opcode.ofBits b = some op → op.bits = b := by
  decide +revert

theorem opcode_ofFields (op : Opcode) (rd rs1 rs2 : RegIdx) (n : Amount) :
    (Instr.ofFields op rd rs1 rs2 n).opcode = op := by cases op <;> rfl

/-- What a word that decodes looks like: all checks of 30_encoding.md R56 passed. -/
theorem decode_ok {w : CmdWord} {i : Instr} (h : decode w = .ok i) :
    ∃ op, Opcode.ofBits (opField w) = some op ∧ zField w = 0 ∧
      (op.cls = .r3 ∨ op.cls = .r2 → amtField w = 0) ∧
      (op.cls = .r2 ∨ op.cls = .ra → rs2Field w = 0) ∧
      (op = .shl → (amtField w).val ≤ 32) ∧
      i = Instr.ofFields op (rdField w) (rs1Field w) (rs2Field w) (amtField w) := by
  unfold decode at h
  split at h
  · cases h
  · next op hop =>
    split at h
    · cases h
    · next hz =>
      split at h
      · cases h
      · next ha =>
        split at h
        · cases h
        · next hr =>
          split at h
          · cases h
          · next hs =>
            refine ⟨op, hop, by simpa using hz, fun hc => ?_, fun hc => ?_, fun hc => ?_, ?_⟩
            · exact Decidable.byContradiction fun hn => ha ⟨hc, hn⟩
            · exact Decidable.byContradiction fun hn => hr ⟨hc, hn⟩
            · exact Nat.le_of_not_lt fun hn => hs ⟨hc, hn⟩
            · exact (Except.ok.inj h).symm

/-- A decoded command is well formed. -/
theorem wellFormed_of_decode {w : CmdWord} {i : Instr} (h : decode w = .ok i) : i.wellFormed = true := by
  obtain ⟨op, -, -, -, -, hs, rfl⟩ := decode_ok h
  cases op <;> first | rfl | exact decide_eq_true (hs rfl)

end Sys2Proof
end

