-- ==== Sys2Proof/Laws/Operands.lean ====
section
/-! SUPPORT. The views of a value as arithmetic: a half made of two limbs, a value as its four limbs, and the
bits of `val`. -/

namespace Sys2Proof

theorem halfOfLimbs_toNat (top bottom : Nat) :
    (halfOfLimbs top bottom).toNat = (top * 2 ^ 16 + bottom % 2 ^ 16) % 2 ^ 32 := by
  unfold halfOfLimbs low16
  rw [← Nat.shiftLeft_add_eq_or_of_lt (Nat.mod_lt _ (by norm_num)), Nat.shiftLeft_eq, BitVec.toNat_ofNat]

theorem val_eq_limbs (a : Value) :
    a.val = a.limb00 + a.limb16 * 2 ^ 16 + a.limb32 * 2 ^ 32 + a.limb48 * 2 ^ 48 := by
  have := a.hi.isLt
  have := a.lo.isLt
  simp only [Value.val, Value.limb00, Value.limb16, Value.limb32, Value.limb48, low16, high16,
    Nat.shiftRight_eq_div_pow]
  omega

theorem val_testBit (v : Value) (i : Nat) :
    v.val.testBit i = if i < 32 then v.lo.getLsbD i else v.hi.getLsbD (i - 32) := by
  have h : v.val = (v.hi ++ v.lo).toNat := (toNat_append_add v.hi v.lo).symm
  rw [h, ← BitVec.getLsbD, BitVec.getLsbD_append]

/-- `U` of a natural number is `U` of the integer it is. -/
theorem ofInt_natCast (n : Nat) : Value.ofInt n = Value.ofNat n := by
  unfold Value.ofInt Value.ofNat
  have h64 : ((n : Int) % 2 ^ 64).toNat = n % 2 ^ 64 := by omega
  have h32 : ((n : Int) % 2 ^ 32).toNat = n % 2 ^ 32 := by omega
  rw [h64, h32]

end Sys2Proof
end

