-- ==== Sys2Proof/Laws/State.lean ====
section
/-! SUPPORT. One lemma per field per update, so that no later proof unfolds a record update. -/

namespace Sys2Proof.Machine

/-! ### Writing a register -/

@[simp] theorem writeV_status (s : State) (r : RegIdx) (v : Value) : (s.writeV r v).status = s.status := rfl
@[simp] theorem writeV_errcmd (s : State) (r : RegIdx) (v : Value) : (s.writeV r v).errcmd = s.errcmd := rfl
@[simp] theorem writeV_inbox (s : State) (r : RegIdx) (v : Value) : (s.writeV r v).inbox = s.inbox := rfl
@[simp] theorem writeV_responses (s : State) (r : RegIdx) (v : Value) :
    (s.writeV r v).responses = s.responses := rfl

@[simp] theorem readV_writeV_same (s : State) (r : RegIdx) (v : Value) : (s.writeV r v).readV r = v := by
  simp [State.readV, State.writeV]

theorem readV_writeV_ne (s : State) {r q : RegIdx} (v : Value) (h : q ≠ r) :
    (s.writeV r v).readV q = s.readV q := by
  have : r.val ≠ q.val := fun e => h (Fin.ext e.symm)
  simp [State.readV, State.writeV, Vector.getElem_set_ne, this]

/-! ### Reading a register after an update of another field -/

@[simp] theorem readV_inbox (s : State) (es : List HostEvent) (r : RegIdx) :
    ({ s with inbox := es } : State).readV r = s.readV r := rfl
@[simp] theorem readV_responses (s : State) (rs : List Response) (r : RegIdx) :
    ({ s with responses := rs } : State).readV r = s.readV r := rfl
@[simp] theorem readV_status (s : State) (st : BitVec 32) (r : RegIdx) :
    ({ s with status := st } : State).readV r = s.readV r := rfl
@[simp] theorem readV_errcmd (s : State) (w : BitVec 32) (r : RegIdx) :
    ({ s with errcmd := w } : State).readV r = s.readV r := rfl

/-! ### Giving a response -/

@[simp] theorem respond_regs (s : State) (r : Response) : (s.respond r).regs = s.regs := rfl
@[simp] theorem respond_status (s : State) (r : Response) : (s.respond r).status = s.status := rfl
@[simp] theorem respond_errcmd (s : State) (r : Response) : (s.respond r).errcmd = s.errcmd := rfl
@[simp] theorem respond_inbox (s : State) (r : Response) : (s.respond r).inbox = s.inbox := rfl
@[simp] theorem respond_responses (s : State) (r : Response) :
    (s.respond r).responses = s.responses ++ [r] := rfl
@[simp] theorem readV_respond (s : State) (r : Response) (i : RegIdx) :
    (s.respond r).readV i = s.readV i := rfl

/-! ### Reset -/

@[simp] theorem applyReset_regs (s : State) : s.applyReset.regs = State.reset.regs := rfl
@[simp] theorem applyReset_status (s : State) : s.applyReset.status = 0 := rfl
@[simp] theorem applyReset_errcmd (s : State) : s.applyReset.errcmd = 0 := rfl
@[simp] theorem applyReset_inbox (s : State) : s.applyReset.inbox = s.inbox := rfl
@[simp] theorem applyReset_responses (s : State) : s.applyReset.responses = s.responses := rfl

theorem readV_reset (r : RegIdx) : State.reset.readV r = Value.zero := by
  simp [State.readV, State.reset]

@[simp] theorem readV_applyReset (s : State) (r : RegIdx) : s.applyReset.readV r = Value.zero :=
  readV_reset r

/-! ### The status word -/

theorem statusRecord_toNat (st : BitVec 32) (c : BitVec 3) :
    (statusRecord st c).toNat = st.toNat / 16 * 16 + c.toNat * 2 + 1 := by
  unfold statusRecord
  refine (toNat_append_add (statusReserved st ++ c) (1 : BitVec 1)).trans ?_
  rw [toNat_append_add]
  have := st.isLt
  simp only [statusReserved, BitVec.extractLsb'_toNat, Nat.shiftRight_eq_div_pow]
  simp
  omega

@[simp] theorem statusErr_record (st : BitVec 32) (c : BitVec 3) : statusErr (statusRecord st c) = 1 := by
  apply BitVec.eq_of_toNat_eq
  have := statusRecord_toNat st c
  simp only [statusErr, BitVec.extractLsb'_toNat, Nat.shiftRight_eq_div_pow, this]
  simp
  omega

@[simp] theorem statusCause_record (st : BitVec 32) (c : BitVec 3) : statusCause (statusRecord st c) = c := by
  apply BitVec.eq_of_toNat_eq
  have := statusRecord_toNat st c
  have := c.isLt
  simp only [statusCause, BitVec.extractLsb'_toNat, Nat.shiftRight_eq_div_pow, statusRecord_toNat]
  omega

@[simp] theorem statusReserved_record (st : BitVec 32) (c : BitVec 3) :
    statusReserved (statusRecord st c) = statusReserved st := by
  apply BitVec.eq_of_toNat_eq
  have := c.isLt
  simp only [statusReserved, BitVec.extractLsb'_toNat, Nat.shiftRight_eq_div_pow, statusRecord_toNat]
  omega

end Sys2Proof.Machine
end

