-- ==== Sys2Proof/Laws/Ops.lean ====
section
/-! SUPPORT. For each shared operation, all it can do, said once: raising the exception, a command, a
request, an event, a step. Proofs cite these and do not unfold the operations. -/

namespace Sys2Proof.Machine

/-- Raising the exception either records it, on a machine without an error, or changes nothing. -/
theorem raiseIllegal_cases (c : IllegalCause) (w : CmdWord) (s : State) :
    (statusErr s.status = 0 ∧
      raiseIllegal c w s = { s with status := statusRecord s.status (causeCode c), errcmd := w }) ∨
    (statusErr s.status = 1 ∧ raiseIllegal c w s = s) := by
  have h01 : ∀ b : BitVec 1, b = 0 ∨ b = 1 := by decide
  rcases h01 (statusErr s.status) with h | h
  · exact .inl ⟨h, by simp [raiseIllegal, h]⟩
  · exact .inr ⟨h, by simp [raiseIllegal, h]⟩

@[simp] theorem raiseIllegal_regs (c : IllegalCause) (w : CmdWord) (s : State) :
    (raiseIllegal c w s).regs = s.regs := by
  rcases raiseIllegal_cases c w s with ⟨-, h⟩ | ⟨-, h⟩ <;> rw [h]

@[simp] theorem raiseIllegal_inbox (c : IllegalCause) (w : CmdWord) (s : State) :
    (raiseIllegal c w s).inbox = s.inbox := by
  rcases raiseIllegal_cases c w s with ⟨-, h⟩ | ⟨-, h⟩ <;> rw [h]

@[simp] theorem raiseIllegal_responses (c : IllegalCause) (w : CmdWord) (s : State) :
    (raiseIllegal c w s).responses = s.responses := by
  rcases raiseIllegal_cases c w s with ⟨-, h⟩ | ⟨-, h⟩ <;> rw [h]

@[simp] theorem readV_raiseIllegal (c : IllegalCause) (w : CmdWord) (s : State) (r : RegIdx) :
    (raiseIllegal c w s).readV r = s.readV r := by
  simp [State.readV]

/-- The value a well-formed command writes, as a function of the register file alone. -/
def resultOf (i : Instr) (read : RegIdx → Value) : Value :=
  match i with
  | .add _ a b => add64 (read a) (read b)
  | .sub _ a b => sub64 (read a) (read b)
  | .neg _ a => neg64 (read a)
  | .inc _ a => add64 (read a) Value.one
  | .mul _ a b => mul64 (read a) (read b)
  | .xor _ a b => xor64 (read a) (read b)
  | .and _ a b => and64 (read a) (read b)
  | .not _ a => not64 (read a)
  | .mod2 _ a => and64 (read a) Value.one
  | .rotl _ a n => rotl64 (read a) n.val
  | .rotr _ a n => rotr64 (read a) n.val
  | .shl _ a n => shl64 (read a) n.val

/-- A well-formed command writes its result to its destination and does nothing else. -/
theorem exec_wellFormed {i : Instr} (h : i.wellFormed = true) (s : State) :
    exec i s = .next (s.writeV i.dest (resultOf i s.readV)) := by
  cases i with
  | shl rd rs1 n =>
    have hn : ¬ 32 < n.val := Nat.not_lt.mpr (of_decide_eq_true h)
    simp only [exec, execShl, if_neg hn, Instr.dest, resultOf]
  | _ => rfl

/-- An ill-formed command, SHL with an amount above 32, raises the exception and does nothing else. -/
theorem exec_illFormed {i : Instr} (h : i.wellFormed = false) (s : State) :
    exec i s = .next (raiseIllegal .shlAmountRange (encode i) s) := by
  cases i with
  | shl rd rs1 n =>
    have hn : 32 < n.val := Nat.lt_of_not_le (of_decide_eq_false h)
    simp only [exec, execShl, if_pos hn]
  | _ => cases h

/-- A request is served whole: it writes one register, or raises the exception, or changes nothing; and it
has a response. -/
theorem serve_cases (q : Request) (s : State) :
    ∃ t r, serve q s = .next (t, r) ∧
      ((∃ i, ReqKind.ofBits q.kind = .cmd ∧ decode q.cmd = .ok i ∧
          t = s.writeV i.dest (resultOf i s.readV) ∧ r = Response.zero) ∨
       (∃ c, ReqKind.ofBits q.kind = .cmd ∧ decode q.cmd = .error c ∧
          t = raiseIllegal c q.cmd s ∧ r = Response.zero) ∨
       (ReqKind.ofBits q.kind = .wr ∧ t = s.writeV q.reg ⟨q.hi, q.lo⟩ ∧ r = Response.zero) ∨
       (ReqKind.ofBits q.kind = .rd ∧ t = s ∧ r = ⟨(s.readV q.reg).hi, (s.readV q.reg).lo⟩) ∨
       (ReqKind.ofBits q.kind = .rdstat ∧ t = s ∧ r = ⟨s.errcmd, s.status⟩)) := by
  unfold serve
  split
  next hk =>
    unfold serveCmd
    split
    next c hc => exact ⟨_, _, rfl, .inr (.inl ⟨c, hk, hc, rfl, rfl⟩)⟩
    next i hi =>
      rw [exec_wellFormed (wellFormed_of_decode hi)]
      exact ⟨_, _, rfl, .inl ⟨i, hk, hi, rfl, rfl⟩⟩
  next hk => exact ⟨_, _, rfl, .inr (.inr (.inl ⟨hk, rfl, rfl⟩))⟩
  next hk => exact ⟨_, _, rfl, .inr (.inr (.inr (.inl ⟨hk, rfl, rfl⟩)))⟩
  next hk => exact ⟨_, _, rfl, .inr (.inr (.inr (.inr ⟨hk, rfl, rfl⟩)))⟩

/-- Serving a request leaves the two ends of the port alone. -/
theorem serve_port {q : Request} {s t : State} {r : Response} (h : serve q s = .next (t, r)) :
    t.inbox = s.inbox ∧ t.responses = s.responses := by
  obtain ⟨t', r', h', hc⟩ := serve_cases q s
  rw [h] at h'
  obtain ⟨rfl, rfl⟩ := Prod.mk.inj (Host.Outcome.next.inj h')
  rcases hc with ⟨_, _, _, rfl, _⟩ | ⟨_, _, _, rfl, _⟩ | ⟨_, rfl, _⟩ | ⟨_, rfl, _⟩ | ⟨_, rfl, _⟩ <;> simp

/-- An event is handled whole: a request is served and answered, a reset leaves the reset state. -/
theorem handle_cases (e : HostEvent) (s : State) :
    (∃ q t r, e = .request q ∧ serve q s = .next (t, r) ∧ handle e s = .next (t.respond r)) ∨
    (∃ inFlight, e = .reset inFlight ∧ handle e s = .next s.applyReset) := by
  cases e with
  | request q =>
    obtain ⟨t, r, h, -⟩ := serve_cases q s
    exact .inl ⟨q, t, r, rfl, h, by simp only [handle, h, giveResponse]⟩
  | reset fl =>
    refine .inr ⟨fl, rfl, ?_⟩
    cases fl with
    | none => rfl
    | some q =>
      obtain ⟨t, r, h, -⟩ := serve_cases q s
      have hp := serve_port h
      simp only [handle, h, abandon, State.applyReset, hp.1, hp.2]

/-- A step handles the next event, or is idle. -/
theorem step_cases (s : State) :
    (s.inbox = [] ∧ step s = .next s) ∨
    (∃ q rest t r, s.inbox = .request q :: rest ∧ serve q { s with inbox := rest } = .next (t, r) ∧
      step s = .next (t.respond r)) ∨
    (∃ inFlight rest, s.inbox = .reset inFlight :: rest ∧
      step s = .next ({ s with inbox := rest } : State).applyReset) := by
  cases hb : s.inbox with
  | nil => exact .inl ⟨rfl, by simp only [step, hb]⟩
  | cons e rest =>
    have hs : step s = handle e { s with inbox := rest } := by simp only [step, hb]
    rcases handle_cases e { s with inbox := rest } with ⟨q, t, r, rfl, h, hh⟩ | ⟨fl, rfl, hh⟩
    · exact .inr (.inl ⟨q, rest, t, r, rfl, h, hs.trans hh⟩)
    · exact .inr (.inr ⟨fl, rest, rfl, hs.trans hh⟩)

end Sys2Proof.Machine
end

