-- ==== Sys2Proof/Laws/PerInstr.lean ====
section
/-! SUPPORT. The family EncodedFields, one lemma per command: the word of a command has the command's opcode
and destination in their fields and a zero in the reserved field `Z` (30_encoding.md R48, R51, R54). -/

namespace Sys2Proof.Laws.EncodedFields

/-- The fields of a command's word that every class has. -/
def Statement (i : Instr) : Prop :=
  opField (encode i) = i.opcode.bits ∧ rdField (encode i) = i.dest ∧ zField (encode i) = 0

theorem of_formatC {i : Instr} (rs1 rs2 : RegIdx) (n : Amount)
    (h : encode i = formatC i.opcode.bits i.dest rs1 rs2 0 n) : Statement i := by
  refine ⟨?_, ?_, ?_⟩ <;> rw [h]
  · exact opField_formatC ..
  · exact rdField_formatC ..
  · exact zField_formatC ..

theorem add (rd rs1 rs2 : RegIdx) : Statement (.add rd rs1 rs2) := of_formatC rs1 rs2 0 rfl
theorem sub (rd rs1 rs2 : RegIdx) : Statement (.sub rd rs1 rs2) := of_formatC rs1 rs2 0 rfl
theorem neg (rd rs1 : RegIdx) : Statement (.neg rd rs1) := of_formatC rs1 0 0 rfl
theorem inc (rd rs1 : RegIdx) : Statement (.inc rd rs1) := of_formatC rs1 0 0 rfl
theorem mul (rd rs1 rs2 : RegIdx) : Statement (.mul rd rs1 rs2) := of_formatC rs1 rs2 0 rfl
theorem xor (rd rs1 rs2 : RegIdx) : Statement (.xor rd rs1 rs2) := of_formatC rs1 rs2 0 rfl
theorem and (rd rs1 rs2 : RegIdx) : Statement (.and rd rs1 rs2) := of_formatC rs1 rs2 0 rfl
theorem not (rd rs1 : RegIdx) : Statement (.not rd rs1) := of_formatC rs1 0 0 rfl
theorem mod2 (rd rs1 : RegIdx) : Statement (.mod2 rd rs1) := of_formatC rs1 0 0 rfl
theorem rotl (rd rs1 : RegIdx) (n : Amount) : Statement (.rotl rd rs1 n) := of_formatC rs1 0 n rfl
theorem rotr (rd rs1 : RegIdx) (n : Amount) : Statement (.rotr rd rs1 n) := of_formatC rs1 0 n rfl
theorem shl (rd rs1 : RegIdx) (n : Amount) : Statement (.shl rd rs1 n) := of_formatC rs1 0 n rfl

end Sys2Proof.Laws.EncodedFields
end

