-- ==== Sys2Proof/Laws/Port.lean ====
section
/-! SUPPORT. What an accepted request can do to the clocked port. -/

namespace Sys2Proof.Machine

/-- Performing what is due either changes nothing, or serves the request in flight, once, in the cycle of
its response, where its effect may show there. -/
theorem performIfDue_cases (p : Port) :
    (p.performIfDue = .next p ∧
      ∀ f left, p.phase = .busy f none left → ¬ (left ≤ 1 ∧ f.showsWithResponse = true)) ∨
    ∃ f left t r, p.phase = .busy f none left ∧ left ≤ 1 ∧ f.showsWithResponse = true ∧
      serve f.req p.block = .next (t, r) ∧
      p.performIfDue = .next { p with block := t, phase := .busy f (some r) left } := by
  unfold Port.performIfDue
  split
  next f left hp =>
    split
    next h =>
      obtain ⟨t, r, hs, -⟩ := serve_cases f.req p.block
      have h' : left ≤ 1 ∧ f.showsWithResponse = true := by simpa using h
      exact .inr ⟨f, left, t, r, hp, h'.1, h'.2, hs, by rw [hs]⟩
    next h =>
      refine .inl ⟨rfl, fun f' left' hp' => ?_⟩
      rw [hp] at hp'
      cases hp'
      simpa using h
  next hp => exact .inl ⟨rfl, fun _ _ hp' => by rw [hp] at hp'; cases hp'⟩
  next hp => exact .inl ⟨rfl, fun _ _ hp' => by rw [hp] at hp'; cases hp'⟩

/-- A request in flight always completes with a response. -/
theorem completed_next (p : Port) (q : Request) (rsp : Option Response) :
    ∃ t r, p.completed q rsp = .next (t, r) := by
  cases rsp with
  | some r => exact ⟨p.block, r, rfl⟩
  | none =>
    obtain ⟨t, r, h, -⟩ := serve_cases q p.block
    exact ⟨t, r, h⟩

@[simp] theorem Flight.accepted_req (k : Nat) (q : Request) (s : State) : (Flight.accepted k q s).req = q := rfl
@[simp] theorem Flight.accepted_answersAtReset (k : Nat) (q : Request) (s : State) :
    (Flight.accepted k q s).answersAtReset = Config.answersAtReset k q s := rfl
@[simp] theorem Flight.accepted_showsWithResponse (k : Nat) (q : Request) (s : State) :
    (Flight.accepted k q s).showsWithResponse = Config.showsWithResponse k q s := rfl

/-- Where a response given in the cycle of a reset would not count, the effect does not show with it. -/
theorem showsWithResponse_answers {k : Nat} {q : Request} {s : State} (h : Config.showsWithResponse k q s = true) :
    Config.answersAtReset k q s = true := by
  simp only [Config.showsWithResponse, Bool.and_eq_true] at h
  exact h.1

end Sys2Proof.Machine
end

