-- ==== Sys2Proof/Laws/Run.lean ====
section
/-! SUPPORT. Running a list of host events, one event at a time: the lemmas that turn a statement about runs
into an induction over the list. -/

namespace Sys2Proof.Machine

theorem run_succ (M : Host.Core) (k : Nat) (s t : M.State) (h : M.step s = .next t) :
    M.run (k + 1) s = M.run k t := by
  simp only [Host.Core.run, h]

/-- Serving a request does not depend on what the host will do next. -/
theorem serve_inbox {q : Request} {s t : State} {r : Response} (es : List HostEvent)
    (h : serve q s = .next (t, r)) :
    serve q { s with inbox := es } = .next ({ t with inbox := es }, r) := by
  obtain ⟨t', r', h', hc⟩ := serve_cases q s
  rw [h] at h'
  obtain ⟨rfl, rfl⟩ := Prod.mk.inj (Host.Outcome.next.inj h')
  rcases hc with ⟨i, hk, hd, rfl, rfl⟩ | ⟨c, hk, hd, rfl, rfl⟩ | ⟨hk, rfl, rfl⟩ | ⟨hk, rfl, rfl⟩ |
    ⟨hk, rfl, rfl⟩
  · simp only [serve, hk, serveCmd, hd]
    rw [exec_wellFormed (wellFormed_of_decode hd)]
    rfl
  · simp only [serve, hk, serveCmd, hd, raiseIllegal]
    split <;> rfl
  all_goals simp only [serve, hk, serveWr, serveRd, serveRdstat] <;> rfl

/-- Handling an event does not depend on the events behind it, and leaves them alone. -/
theorem handle_inbox (e : HostEvent) (s : State) (es : List HostEvent) :
    ∃ t, handle e s = .next t ∧ t.inbox = s.inbox ∧
      handle e { s with inbox := es } = .next { t with inbox := es } := by
  rcases handle_cases e s with ⟨q, t, r, rfl, h, hh⟩ | ⟨fl, rfl, hh⟩
  · refine ⟨_, hh, (serve_port h).1, ?_⟩
    simp only [handle, serve_inbox es h, giveResponse]
    rfl
  · rcases handle_cases (.reset fl) { s with inbox := es } with ⟨q, t, r, e, _⟩ | ⟨fl', e, h2⟩
    · cases e
    · exact ⟨_, hh, rfl, h2⟩

theorem serveAll_nil (s : State) : s.serveAll [] = .next { s with inbox := [] } := rfl

/-- Serving a list is handling its first event and serving the rest. -/
theorem serveAll_cons (s : State) (e : HostEvent) (es : List HostEvent) :
    ∃ t, handle e s = .next t ∧ s.serveAll (e :: es) = t.serveAll es := by
  obtain ⟨t, h, -, h2⟩ := handle_inbox e s es
  exact ⟨t, h, run_succ Sys2Proof.core es.length { s with inbox := e :: es } { t with inbox := es } h2⟩

end Sys2Proof.Machine
end

