-- ==== Sys2Proof/Tests/Slice0.lean ====
section
/-! SUPPORT. Tests. Expected results are the spec's own: the vectors of 95_test_vectors.md (section named at
each group) or words written out from the field table of 30_encoding.md R48. The last part gives, for each
statement that has hypotheses, a concrete case that meets them. -/

namespace Sys2Proof.Tests

open Sys2Proof.Machine

/-! ### Well-formedness: the one check, with a term it refuses (44_rotate.md R80) -/

theorem test_shl_by_33_is_ill_formed : (Instr.shl 1 2 33).wellFormed = false := by decide
theorem test_shl_by_32_is_well_formed : (Instr.shl 1 2 32).wellFormed = true := by decide

/-! ### Decoding: one word of every command, written out field by field
(`OP` `RD` `RS1` `RS2` `Z` `AMT`, 30_encoding.md R48, R51) -/

theorem test_decode_add : decode (0b0001#4 ++ 0b0011#4 ++ 0b0001#4 ++ 0b0010#4 ++ 0b0000000000#10 ++ 0b000000#6) = .ok (.add 3 1 2) := by decide
theorem test_decode_sub : decode (0b0010#4 ++ 0b0100#4 ++ 0b0011#4 ++ 0b0010#4 ++ 0b0000000000#10 ++ 0b000000#6) = .ok (.sub 4 3 2) := by decide
theorem test_decode_neg : decode (0b0011#4 ++ 0b0101#4 ++ 0b0010#4 ++ 0b0000#4 ++ 0b0000000000#10 ++ 0b000000#6) = .ok (.neg 5 2) := by decide
theorem test_decode_inc : decode (0b0100#4 ++ 0b0001#4 ++ 0b1110#4 ++ 0b0000#4 ++ 0b0000000000#10 ++ 0b000000#6) = .ok (.inc 1 14) := by decide
theorem test_decode_mul : decode (0b0101#4 ++ 0b0011#4 ++ 0b0001#4 ++ 0b0010#4 ++ 0b0000000000#10 ++ 0b000000#6) = .ok (.mul 3 1 2) := by decide
theorem test_decode_xor : decode (0b0110#4 ++ 0b0111#4 ++ 0b0100#4 ++ 0b0001#4 ++ 0b0000000000#10 ++ 0b000000#6) = .ok (.xor 7 4 1) := by decide
theorem test_decode_and : decode (0b0111#4 ++ 0b0110#4 ++ 0b0011#4 ++ 0b0001#4 ++ 0b0000000000#10 ++ 0b000000#6) = .ok (.and 6 3 1) := by decide
theorem test_decode_not : decode (0b1000#4 ++ 0b1111#4 ++ 0b0011#4 ++ 0b0000#4 ++ 0b0000000000#10 ++ 0b000000#6) = .ok (.not 15 3) := by decide
theorem test_decode_mod2 : decode (0b1001#4 ++ 0b0111#4 ++ 0b0011#4 ++ 0b0000#4 ++ 0b0000000000#10 ++ 0b000000#6) = .ok (.mod2 7 3) := by decide
theorem test_decode_rotl : decode (0b1010#4 ++ 0b0100#4 ++ 0b0001#4 ++ 0b0000#4 ++ 0b0000000000#10 ++ 0b010000#6) = .ok (.rotl 4 1 16) := by decide
theorem test_decode_rotr : decode (0b1011#4 ++ 0b0000#4 ++ 0b1111#4 ++ 0b0000#4 ++ 0b0000000000#10 ++ 0b111111#6) = .ok (.rotr 0 15 63) := by decide
theorem test_decode_shl : decode (0b1100#4 ++ 0b0000#4 ++ 0b0001#4 ++ 0b0000#4 ++ 0b0000000000#10 ++ 0b100000#6) = .ok (.shl 0 1 32) := by decide

/-! ### Illegal words (95_test_vectors.md section 4) -/

theorem test_decode_reserved : decode 0xD0000000 = .error .reservedOpcode ∧ decode 0xF1234567 = .error .reservedOpcode := by decide
theorem test_decode_r2_with_rs2 : decode 0x32110000 = .error .nonzeroReservedField ∧ decode 0x32100001 = .error .nonzeroReservedField := by decide
theorem test_decode_ra_with_rs2 : decode 0xA4110010 = .error .nonzeroReservedField ∧ decode 0xA4100050 = .error .nonzeroReservedField := by decide
theorem test_decode_shl_far : decode 0xC010003F = .error .shlAmountRange ∧ decode 0xC01000FF = .error .nonzeroReservedField := by decide
theorem test_table_word : decodeTableWord 32 0xC0000020 = some (.shl 0 0 32) := by decide

/-! ### One step on a small state: `V1 = a`, `V2 = b`, one CMD request (95_test_vectors.md sections 3.1 to
3.9, and section 1.1 where noted) -/

/-- After reset with `V1` and `V2` written. -/
def withV1V2 (a b : Value) : State := (State.reset.writeV 1 a).writeV 2 b

/-- Register `r` after the one step that runs the word `w`. -/
def readAfter (s : State) (w : Nat) (r : RegIdx) : Option Value :=
  match step (s.withFetchWord 32 w) with
  | .next t => some (t.readV r)
  | .fault _ => none
  | .refused _ => none

/-- The error registers after that step: `(ERRCMD, STATUS)`. -/
def errorAfter (s : State) (w : Nat) : Option (BitVec 32 × BitVec 32) :=
  match step (s.withFetchWord 32 w) with
  | .next t => some (t.errcmd, t.status)
  | .fault _ => none
  | .refused _ => none

-- section 1.1 scenario 2
theorem test_add_scenario : readAfter (withV1V2 ⟨0x4aa537e0, 0x2d4ff2d7⟩ ⟨0xe8c2a9e2, 0x2698b38b⟩) 0x13120000 3 = some ⟨0x3367e1c2, 0x53e8a662⟩ := by decide
theorem test_add_carries_into_hi : readAfter (withV1V2 ⟨0, 0xffffffff⟩ ⟨0, 1⟩) 0x13120000 3 = some ⟨1, 0⟩ := by decide
theorem test_sub_order : readAfter (withV1V2 ⟨0x01234567, 0x89abcdef⟩ ⟨0xfedcba98, 0x76543210⟩) 0x23120000 3 = some ⟨0x02468acf, 0x13579bdf⟩ := by decide
theorem test_sub_borrows : readAfter (withV1V2 ⟨1, 0⟩ ⟨0, 1⟩) 0x23120000 3 = some ⟨0, 0xffffffff⟩ := by decide
-- section 1.1 scenario 3
theorem test_neg_scenario : readAfter (withV1V2 ⟨0x4f3f9abb, 0x2e7c8889⟩ ⟨0, 0⟩) 0x32100000 2 = some ⟨0xb0c06544, 0xd1837777⟩ := by decide
theorem test_neg_carries : readAfter (withV1V2 ⟨1, 0⟩ ⟨0, 0⟩) 0x32100000 2 = some ⟨0xffffffff, 0⟩ := by decide
theorem test_inc_in_place : readAfter (withV1V2 ⟨0, 0xffffffff⟩ ⟨0, 0⟩) 0x41100000 1 = some ⟨1, 0⟩ := by decide
theorem test_inc_wraps : readAfter (withV1V2 ⟨0xffffffff, 0xffffffff⟩ ⟨0, 0⟩) 0x42100000 2 = some ⟨0, 0⟩ := by decide
-- section 2.3
theorem test_mul_columns : readAfter (withV1V2 ⟨0x01234567, 0x89abcdef⟩ ⟨0xfedcba98, 0x76543210⟩) 0x53120000 3 = some ⟨0x2236d88f, 0xe5618cf0⟩ := by decide
theorem test_mul_zero : readAfter (withV1V2 ⟨0, 0⟩ ⟨0xfedcba98, 0x76543210⟩) 0x53120000 3 = some ⟨0, 0⟩ := by decide
theorem test_xor : readAfter (withV1V2 ⟨0x0f0f0f0f, 0x0f123456⟩ ⟨0xffffffff, 0⟩) 0x63120000 3 = some ⟨0xf0f0f0f0, 0x0f123456⟩ := by decide
theorem test_and : readAfter (withV1V2 ⟨0x4f3f9abb, 0x2e7c8889⟩ ⟨0, 0xffff0000⟩) 0x73120000 3 = some ⟨0, 0x2e7c0000⟩ := by decide
theorem test_not : readAfter (withV1V2 ⟨0x4f3f9abb, 0x2e7c8889⟩ ⟨0, 0⟩) 0x83100000 3 = some ⟨0xb0c06544, 0xd1837776⟩ := by decide
theorem test_mod2_odd : readAfter (withV1V2 ⟨0x4f3f9abb, 0x2e7c8889⟩ ⟨0, 0⟩) 0x93100000 3 = some ⟨0, 1⟩ := by decide
theorem test_mod2_hi_never_counts : readAfter (withV1V2 ⟨0x80000000, 0⟩ ⟨0, 0⟩) 0x93100000 3 = some ⟨0, 0⟩ := by decide
theorem test_rotl_31 : readAfter (withV1V2 ⟨0x01234567, 0x89abcdef⟩ ⟨0, 0⟩) 0xA310001F 3 = some ⟨0xc4d5e6f7, 0x8091a2b3⟩ := by decide
theorem test_rotl_33 : readAfter (withV1V2 ⟨0x01234567, 0x89abcdef⟩ ⟨0, 0⟩) 0xA3100021 3 = some ⟨0x13579bde, 0x02468acf⟩ := by decide
theorem test_rotr_4 : readAfter (withV1V2 ⟨0x01234567, 0x89abcdef⟩ ⟨0, 0⟩) 0xB3100004 3 = some ⟨0xf0123456, 0x789abcde⟩ := by decide
theorem test_rotr_no_sign_fill : readAfter (withV1V2 ⟨0x80000000, 1⟩ ⟨0, 0⟩) 0xB3100001 3 = some ⟨0xc0000000, 0⟩ := by decide
theorem test_shl_31 : readAfter (withV1V2 ⟨0x01234567, 0x89abcdef⟩ ⟨0, 0⟩) 0xC310001F 3 = some ⟨0xc4d5e6f7, 0x80000000⟩ := by decide
theorem test_shl_32 : readAfter (withV1V2 ⟨0x01234567, 0x89abcdef⟩ ⟨0, 0⟩) 0xC3100020 3 = some ⟨0x89abcdef, 0⟩ := by decide

/-! ### The exception and the other requests (95_test_vectors.md section 5) -/

theorem test_illegal_recorded : errorAfter State.reset 0xE0000000 = some (0xE0000000, 0x00000003) := by decide
theorem test_shl_40_recorded : errorAfter State.reset 0xC2100028 = some (0xC2100028, 0x00000007) := by decide
theorem test_first_error_kept : errorAfter { State.reset with status := 3, errcmd := 0xE0000000 } 0xC0100021 = some (0xE0000000, 0x00000003) := by decide
theorem test_zero_word_recorded : errorAfter State.reset 0 = some (0, 0x00000003) := by decide

/-- The responses after one host event from a state. -/
def responsesAfter (s : State) (e : HostEvent) : Option (List Response) :=
  match step { s with inbox := [e] } with
  | .next t => some t.responses
  | .fault _ => none
  | .refused _ => none

theorem test_rd_answers : responsesAfter (State.reset.writeV 2 ⟨0xdeadbeef, 0x01234567⟩) (.request ⟨2, 0, 2, 0, 0⟩) = some [⟨0xdeadbeef, 0x01234567⟩] := by decide
theorem test_rdstat_answers : responsesAfter { State.reset with status := 3, errcmd := 0xE0000000 } (.request ⟨3, 0, 0, 0, 0⟩) = some [⟨0xE0000000, 3⟩] := by decide
theorem test_reset_gives_no_response : responsesAfter { State.reset with status := 3 } (.reset (some ⟨2, 0, 0, 0, 0⟩)) = some [] := by decide

/-! ### `U` of a negative integer (95_test_vectors.md section 1.1 scenario 6) -/

theorem test_U_of_negative : Value.ofInt (-401364645913) = ⟨0xffffffa2, 0x8ccd87e7⟩ := by decide

/-! ### The clocked port (20_memory.md R26, 93_implementation_defined.md U7) -/

/-- An input cycle that presents `q`. -/
def presenting (q : Request) : PortIn := ⟨false, true, q⟩

/-- An idle input cycle. -/
def idle : PortIn := ⟨false, false, Request.ofRdstat⟩

theorem test_port_not_ready_in_reset : (Port.reset.out true).reqReady = false := by decide
theorem test_port_stops_on_changed_request :
    (∃ f, Port.clock ⟨State.reset, .busy ⟨Request.ofRd 1, false, false⟩ none 5, some (Request.ofRd 2), 1⟩ (presenting (Request.ofRd 3)) = .fault f) :=
  ⟨.hostChangedRequest, rfl⟩

/-! ### Witnesses: a case that meets the hypotheses of each statement that has some -/

/-- After reset, with one event to come. -/
def oneEvent (e : HostEvent) : State := { State.reset with inbox := [e] }

theorem witness_DecodeOfEncodeIsTheCommand : (Instr.shl 1 2 32).wellFormed = true := by decide
theorem witness_DecodedCommandHasOnlyThatWord : decode 0xC1200020 = .ok (.shl 1 2 32) := by decide
theorem witness_NoWordMatchesTwoTableRows :
    ⟨.shl, 0xC0000020, 0xF00FFFFF⟩ ∈ opcodeTable ∧ (⟨.shl, 0xC0000020, 0xF00FFFFF⟩ : TableRow).hit 0xC1200020 = true := by decide
theorem witness_DecodeReportsTheFirstFailedCheck :
    ((0xD01000FF : CmdWord).extractLsb' 28 4 ∈ [0x0#4, 0xD#4, 0xE#4, 0xF#4]) ∧
    ((0xC01000FF : CmdWord).extractLsb' 28 4 = 0xC#4 ∧ (0xC01000FF : CmdWord).extractLsb' 6 10 ≠ 0) ∧
    ((0xC0100021 : CmdWord).extractLsb' 28 4 = 0xC#4 ∧ (0xC0100021 : CmdWord).extractLsb' 16 4 = 0 ∧
      (0xC0100021 : CmdWord).extractLsb' 6 10 = 0 ∧ ((0xC0100021 : CmdWord).extractLsb' 0 6).toNat = 33) ∧
    ((0xC0100020 : CmdWord).extractLsb' 28 4 = 0xC#4 ∧ (0xC0100020 : CmdWord).extractLsb' 16 4 = 0 ∧
      (0xC0100020 : CmdWord).extractLsb' 6 10 = 0 ∧ ((0xC0100020 : CmdWord).extractLsb' 0 6).toNat = 32) := by decide
theorem witness_ResultsAreNeverSignalled : (Instr.mod2 0 0).opcode ∈ [.add, .sub, .neg, .inc, .xor, .and, .not, .mod2] := by decide
theorem witness_MulOfLowHalvesIsExact : (⟨0, 0xffffffff⟩ : Value).hi = 0 ∧ (⟨0, 0x89abcdef⟩ : Value).hi = 0 := by decide
theorem witness_ShlUpTo32WritesLogicalShift : (32 : Amount).val ≤ 32 := by decide
theorem witness_ShlAbove32RaisesIllegalCommand :
    32 < (33 : Amount).val ∧ statusErr State.reset.status = 0 ∧ statusErr ({ State.reset with status := 3 } : State).status = 1 := by decide
theorem witness_CommandChangesOnlyItsDestination :
    (∃ t, exec (.add 3 1 2) State.reset = .next t) ∧ (0 : RegIdx) ≠ (Instr.add 3 1 2).dest ∧ (Instr.add 3 1 2).wellFormed = true ∧
    (∃ t, exec (.shl 3 1 33) State.reset = .next t) ∧ (Instr.shl 3 1 33).wellFormed = false :=
  ⟨⟨_, rfl⟩, by decide, rfl, ⟨_, rfl⟩, by decide⟩
theorem witness_ResultDependsOnSourcesOnly :
    (Instr.add 3 1 2).wellFormed = true ∧
    ∀ r ∈ (Instr.add 3 1 2).sources, State.reset.readV r = (State.reset.writeV 5 Value.one).readV r := by decide
theorem witness_IllegalCommandRecordsTheFirstError :
    (oneEvent (.request (Request.ofCmd 0xE0000000))).inbox = [.request (Request.ofCmd 0xE0000000)] ∧
    (Request.ofCmd 0xE0000000).kind = 0b00 ∧ decode (Request.ofCmd 0xE0000000).cmd = .error .reservedOpcode ∧
    statusErr (oneEvent (.request (Request.ofCmd 0xE0000000))).status = 0 ∧
    statusErr ({ oneEvent (.request (Request.ofCmd 0xE0000000)) with status := 3 } : State).status = 1 := by decide
theorem witness_EachCauseIsRecordedWithItsWord :
    (∀ w : CmdWord, (oneEvent (.request (Request.ofCmd w))).inbox = [.request (Request.ofCmd w)] ∧
      (Request.ofCmd w).kind = 0b00 ∧ (oneEvent (.request (Request.ofCmd w))).status = 0) ∧
    (0x0FFFFFFF : CmdWord).extractLsb' 28 4 ∈ [0x0#4, 0xD#4, 0xE#4, 0xF#4] ∧
    ((0x8FF00001 : CmdWord).extractLsb' 28 4 = 0x8#4 ∧ (0x8FF00001 : CmdWord).extractLsb' 0 6 ≠ 0) ∧
    ((0xC0100021 : CmdWord).extractLsb' 28 4 = 0xC#4 ∧ (0xC0100021 : CmdWord).extractLsb' 16 4 = 0 ∧
      (0xC0100021 : CmdWord).extractLsb' 6 10 = 0 ∧ ((0xC0100021 : CmdWord).extractLsb' 0 6).toNat = 33) :=
  ⟨fun _ => ⟨rfl, rfl, rfl⟩, by decide, by decide, by decide⟩
theorem witness_ErrorDoesNotAffectLaterRequests :
    ((Request.ofCmd 0x13120000).illegal = none ∧ (Request.ofCmd 0x13120000).kind ≠ 0b11) ∧
    Request.ofRdstat.kind = 0b11 ∧
    ((Request.ofCmd 0xC0100021).illegal ≠ none ∧ statusErr ({ State.reset with status := 3 } : State).status = 1) := by decide
theorem witness_OnlyFirstIllegalCommandOrResetChangesStatus :
    ∃ t, step (oneEvent (.request (Request.ofCmd 0))) = .next t ∧
      (t.status ≠ (oneEvent (.request (Request.ofCmd 0))).status ∨ t.errcmd ≠ (oneEvent (.request (Request.ofCmd 0))).errcmd) :=
  ⟨_, rfl, .inl (by decide)⟩
theorem witness_EveryStepKeepsStatusLegal :
    ({ oneEvent (.request (Request.ofCmd 0)) with status := 7, errcmd := 0xC0100021 } : State).statusLegal = true ∧
    ∃ t, step { oneEvent (.request (Request.ofCmd 0)) with status := 7, errcmd := 0xC0100021 } = .next t :=
  ⟨by decide, ⟨_, rfl⟩⟩
theorem witness_ErrorRegistersHoldFirstIllegalSinceReset : State.reset.status = 0 ∧ State.reset.errcmd = 0 := by decide
theorem witness_ResetEntersTheResetState :
    (oneEvent (.reset (some (Request.ofRd 3)))).inbox = [.reset (some (Request.ofRd 3))] ∧
    (⟨true, false, Request.ofRdstat⟩ : PortIn).rst = true ∧
    (⟨State.reset, .busy ⟨Request.ofRd 3, false, false⟩ none 2, none, 1⟩ : Port).presenting = none := by decide
theorem witness_StepRunsTheDecodedCommand :
    (oneEvent (.request (Request.ofCmd 0x13120000))).inbox = [.request (Request.ofCmd 0x13120000)] ∧
    (Request.ofCmd 0x13120000).kind = 0b00 ∧ decode (Request.ofCmd 0x13120000).cmd = .ok (.add 3 1 2) := by decide
theorem witness_WrWritesBothHalves :
    (oneEvent (.request (Request.ofWr 15 ⟨1, 2⟩))).inbox = [.request (Request.ofWr 15 ⟨1, 2⟩)] ∧ (Request.ofWr 15 ⟨1, 2⟩).kind = 0b01 := by decide
theorem witness_RdAnswersTheRegister :
    (oneEvent (.request (Request.ofRd 15))).inbox = [.request (Request.ofRd 15)] ∧ (Request.ofRd 15).kind = 0b10 ∧
    (15 : RegIdx).val = (Request.ofRd 15).idx.toNat := by decide
theorem witness_RdstatAnswersTheErrorRegisters :
    (oneEvent (.request Request.ofRdstat)).inbox = [.request Request.ofRdstat] ∧ Request.ofRdstat.kind = 0b11 := by decide
theorem witness_UnusedRequestFieldsAreIgnored :
    (⟨0b10, 5, 3, 7, 9⟩ : Request).kind = (Request.ofRd 3).kind ∧ (⟨0b10, 5, 3, 7, 9⟩ : Request) ≠ Request.ofRd 3 ∧
    (⟨0b10, 5, 3, 7, 9⟩ : Request).idx = (Request.ofRd 3).idx ∧ (⟨0b10, 5, 3, 7, 9⟩ : Request).kind ≠ 0b00 ∧
    (⟨0b10, 5, 3, 7, 9⟩ : Request).kind ≠ 0b01 := by decide

/-- Two masters: one works on `V1`, the other writes `V2`. -/
def twoMasters : List (List HostEvent) :=
  [[.request (Request.ofWr 1 ⟨0, 5⟩), .request (Request.ofCmd 0x41100000)], [.request (Request.ofWr 2 ⟨0, 7⟩)]]

theorem witness_ExclusiveRegistersAreIsolatedUnderAnyArbitration :
    ArbOrder twoMasters [.request (Request.ofWr 1 ⟨0, 5⟩), .request (Request.ofWr 2 ⟨0, 7⟩), .request (Request.ofCmd 0x41100000)] ∧
    twoMasters[0]? = some [.request (Request.ofWr 1 ⟨0, 5⟩), .request (Request.ofCmd 0x41100000)] ∧
    (∀ e ∈ [HostEvent.request (Request.ofWr 1 ⟨0, 5⟩), .request (Request.ofCmd 0x41100000)], e.staysWithin (· == 1) = true) ∧
    ∀ j m, j ≠ 0 → twoMasters[j]? = some m → ∀ e ∈ m, e.writesOutside (· == 1) = true := by
  refine ⟨.grant _ 0 _ _ _ rfl (.grant _ 1 _ _ _ rfl (.grant _ 0 _ _ _ rfl (.done _ (by decide)))), rfl, by decide, ?_⟩
  intro j m hj hm
  match j, hj, hm with
  | 1, _, hm =>
    obtain rfl := Option.some.inj hm
    decide
  | j + 2, _, hm => cases hm

theorem witness_PortCarriesOneRequestAsOneStep :
    Port.reset.phase = .ready ∧ (presenting (Request.ofRd 1)).rst = false ∧ (presenting (Request.ofRd 1)).reqValid = true ∧
    (Port.reset.waiting = none ∨ Port.reset.waiting = some (presenting (Request.ofRd 1)).req) ∧
    (List.replicate (Config.rspLatency Port.reset.accepted (Request.ofRd 1) Port.reset.block) (presenting (Request.ofRd 2))).length = Config.rspLatency Port.reset.accepted (Request.ofRd 1) Port.reset.block ∧
    ∀ i ∈ List.replicate (Config.rspLatency Port.reset.accepted (Request.ofRd 1) Port.reset.block) (presenting (Request.ofRd 2)),
      i.rst = false ∧ (i.reqValid = true → i.req = Request.ofRd 2) := by
  refine ⟨rfl, rfl, rfl, .inl rfl, List.length_replicate, fun i hi => ?_⟩
  obtain rfl := List.eq_of_mem_replicate hi
  exact ⟨rfl, fun _ => rfl⟩

theorem witness_PortAcceptsOnlyWhenReady : ∃ p', Port.reset.clock idle = .next p' := ⟨_, rfl⟩
theorem witness_EveryClockEdgeKeepsThePortLegal :
    (⟨State.reset, .busy ⟨Request.ofRd 1, false, false⟩ none 1, none, 1⟩ : Port).legal = true ∧
    ∃ p', Port.clock ⟨State.reset, .busy ⟨Request.ofRd 1, false, false⟩ none 1, none, 1⟩ idle = .next p' :=
  ⟨by decide, ⟨_, rfl⟩⟩
theorem witness_AbandonedRequestIsNotObservable :
    Port.reset.phase = .ready ∧ (presenting (Request.ofCmd 0)).rst = false ∧ (presenting (Request.ofCmd 0)).reqValid = true ∧
    (Port.reset.waiting = none ∨ Port.reset.waiting = some (presenting (Request.ofCmd 0)).req) ∧
    ([] : List PortIn).length < Config.rspLatency Port.reset.accepted (Request.ofCmd 0) Port.reset.block ∧ (⟨true, false, Request.ofRdstat⟩ : PortIn).rst = true ∧
    ∀ i ∈ ([] : List PortIn), i.rst = false ∧ (i.reqValid = true → i.req = Request.ofRd 2) :=
  ⟨rfl, rfl, rfl, .inl rfl, Nat.succ_pos _, rfl, fun _ h => (List.not_mem_nil h).elim⟩

end Sys2Proof.Tests
end

section
/-! PROOF. The state after reset (10_state.md R24). -/

namespace Sys2Proof.Machine

@[simp] theorem reset_status : State.reset.status = 0 := rfl
@[simp] theorem reset_errcmd : State.reset.errcmd = 0 := rfl

theorem errOut_eq_zero_of_status {s : State} (h : s.status = 0) : s.errOut = 0 := by
  simp [State.errOut, statusErr, h]

/-- Settles O38: every register reads `Value.zero`, whose halves are 0, and `err_out` follows `STATUS`. -/
theorem stateAfterReset : Obligations.StateAfterReset := by
  refine ⟨fun r => ?_, reset_status, reset_errcmd, errOut_eq_zero_of_status reset_status⟩
  rw [readV_reset]
  exact ⟨rfl, rfl⟩

end Sys2Proof.Machine
end

section
/-! PROOF. The serialised form of a value (20_memory.md R39). -/

namespace Sys2Proof

/-- The four bytes of a half, the most significant first. -/
def halfBytes (x : Half) : List (BitVec 8) :=
  [x.extractLsb' 24 8, x.extractLsb' 16 8, x.extractLsb' 8 8, x.extractLsb' 0 8]

/-- `hi` first (20_memory.md R39). -/
theorem toBytes_eq_halfBytes (v : Value) : v.toBytes = halfBytes v.hi ++ halfBytes v.lo := rfl

/-- The bytes of a half are adjacent, so they join from the left. -/
theorem append_bytes_eq_half (x : Half) :
    x.extractLsb' 24 8 ++ x.extractLsb' 16 8 ++ x.extractLsb' 8 8 ++ x.extractLsb' 0 8 = x := by
  iterate 3 rw [BitVec.extractLsb'_append_extractLsb'_eq_extractLsb' (by rfl)]
  exact BitVec.extractLsb'_eq_self

/-- Reading the bytes of a half after a number `n` appends the 32 bits of the half to it. -/
theorem foldl_halfBytes (x : Half) (n : Nat) :
    (halfBytes x).foldl (fun n b => n * 256 + b.toNat) n = n * 2 ^ 32 + x.toNat := by
  have hx := congrArg BitVec.toNat (append_bytes_eq_half x)
  simp only [toNat_append_add] at hx
  simp only [halfBytes, List.foldl_cons, List.foldl_nil]
  linear_combination hx

theorem ofBytes_toBytes (v : Value) : Value.ofBytes v.toBytes = some v := by
  simp only [Value.toBytes, Value.ofBytes, append_bytes_eq_half]

/-- Settles O52: the bytes are those of `hi`, then those of `lo`, so reading them as a number goes half by
half. -/
theorem serialisedFormIsBigEndian : Obligations.SerialisedFormIsBigEndian := by
  refine fun v => ⟨rfl, ?_, ofBytes_toBytes v⟩
  rw [toBytes_eq_halfBytes, List.foldl_append, foldl_halfBytes, foldl_halfBytes, Nat.zero_mul,
    Nat.zero_add, Value.val]

end Sys2Proof
end

section
/-! PROOF. The step on a WR, an RD and an RDSTAT request (20_memory.md R31, R32, R33). -/

namespace Sys2Proof.Machine

/-- The step on a request is serving it, then giving its response. -/
theorem step_of_serve {s t : State} {q : Request} {rest : List HostEvent} {a : Response}
    (hin : s.inbox = .request q :: rest) (h : serve q { s with inbox := rest } = .next (t, a)) :
    step s = .next (t.respond a) := by
  simp only [step, hin, handle, h, giveResponse]

/-! ### Serving, by the bits of `req_kind` (R27) -/

theorem serve_of_wr {q : Request} (hk : q.kind = 0b01) (s : State) :
    serve q s = .next (s.writeV q.reg ⟨q.hi, q.lo⟩, Response.zero) := by
  have hwr : ReqKind.ofBits q.kind = .wr := by rw [hk]; rfl
  simp only [serve, hwr, serveWr]

theorem serve_of_rd {q : Request} (hk : q.kind = 0b10) (s : State) :
    serve q s = .next (s, ⟨(s.readV q.reg).hi, (s.readV q.reg).lo⟩) := by
  have hrd : ReqKind.ofBits q.kind = .rd := by rw [hk]; rfl
  simp only [serve, hrd, serveRd]

theorem serve_of_rdstat {q : Request} (hk : q.kind = 0b11) (s : State) :
    serve q s = .next (s, ⟨s.errcmd, s.status⟩) := by
  have hrdstat : ReqKind.ofBits q.kind = .rdstat := by rw [hk]; rfl
  simp only [serve, hrdstat, serveRdstat]

/-! ### The register a request names -/

theorem val_eq_idx_iff (q : Request) (r : RegIdx) : r.val = q.idx.toNat ↔ r = q.reg := Fin.ext_iff.symm

theorem readV_writeV (s : State) (r i : RegIdx) (v : Value) :
    (s.writeV r v).readV i = if i = r then v else s.readV i := by
  split
  next h => rw [h, readV_writeV_same]
  next h => exact readV_writeV_ne s v h

/-- Settles O41: the one write of WR is to the register named, of both halves. -/
theorem wrWritesBothHalves : Obligations.WrWritesBothHalves := by
  intro s q rest hin hk
  refine ⟨_, step_of_serve hin (serve_of_wr hk _), rfl, rfl, fun r => ?_, rfl, rfl⟩
  simp only [readV_respond, readV_writeV, readV_inbox, val_eq_idx_iff]

/-- Settles O42: serving an RD leaves the state alone, and the step adds its response only. -/
theorem rdAnswersTheRegister : Obligations.RdAnswersTheRegister := by
  intro s q rest r hin hk hr
  obtain rfl := (val_eq_idx_iff q r).mp hr
  exact step_of_serve hin (serve_of_rd hk _)

/-- Settles O43: serving an RDSTAT leaves the state alone, and the step adds its response only. -/
theorem rdstatAnswersTheErrorRegisters : Obligations.RdstatAnswersTheErrorRegisters := by
  intro s q rest hin hk
  exact step_of_serve hin (serve_of_rdstat hk _)

end Sys2Proof.Machine
end

section
/-! PROOF. Decoding on the bits of the word, with the checks in their order (30_encoding.md R53, R54, R56). -/

namespace Sys2Proof

/-! ### The checks of `decode` -/

/-- A field that the class of `op` does not read is nonzero in `w` (30_encoding.md R54). -/
def UnreadNonzero (op : Opcode) (w : CmdWord) : Prop :=
  zField w ≠ 0 ∨ ((op.cls = .r3 ∨ op.cls = .r2) ∧ amtField w ≠ 0) ∨
    ((op.cls = .r2 ∨ op.cls = .ra) ∧ rs2Field w ≠ 0)

theorem decode_of_reserved {w : CmdWord} (hop : Opcode.ofBits (opField w) = none) :
    decode w = .error .reservedOpcode := by
  simp only [decode, hop]

section
variable {w : CmdWord} {op : Opcode} (hop : Opcode.ofBits (opField w) = some op)
include hop

theorem decode_of_unreadNonzero (h : UnreadNonzero op w) : decode w = .error .nonzeroReservedField := by
  simp only [decode, hop]
  rcases h with hz | hamt | hrs2
  · rw [if_pos hz]
  · rw [if_pos hamt, ite_self]
  · rw [if_pos hrs2, ite_self, ite_self]

/-- Past the check of the unread fields, only the amount of SHL is left to check. -/
theorem decode_of_unreadZero (h : ¬ UnreadNonzero op w) :
    decode w = if op = .shl ∧ 32 < (amtField w).val then .error .shlAmountRange
      else .ok (Instr.ofFields op (rdField w) (rs1Field w) (rs2Field w) (amtField w)) := by
  simp only [UnreadNonzero, not_or] at h
  obtain ⟨hz, hamt, hrs2⟩ := h
  simp only [decode, hop]
  rw [if_neg hz, if_neg hamt, if_neg hrs2]

end

/-! ### The opcode map and the classes, on the four bits of `OP` (R51, R53) -/

theorem ofBits_eq_none_iff : ∀ b : BitVec 4,
    Opcode.ofBits b = none ↔ b ∈ [0x0#4, 0xD#4, 0xE#4, 0xF#4] := by decide

theorem cls_eq_r3_iff (op : Opcode) : op.cls = .r3 ↔ op.bits ∈ [0x1#4, 0x2#4, 0x5#4, 0x6#4, 0x7#4] := by
  cases op <;> decide

theorem cls_eq_r2_iff (op : Opcode) : op.cls = .r2 ↔ op.bits ∈ [0x3#4, 0x4#4, 0x8#4, 0x9#4] := by
  cases op <;> decide

theorem cls_eq_ra_iff (op : Opcode) : op.cls = .ra ↔ op.bits ∈ [0xA#4, 0xB#4, 0xC#4] := by
  cases op <;> decide

theorem eq_shl_iff (op : Opcode) : op = .shl ↔ op.bits = 0xC#4 := by
  cases op <;> decide

/-! ### The fields read as numbers, on the bits of the word -/

theorem rs2Field_eq_zero_iff (w : CmdWord) : rs2Field w = 0 ↔ w.extractLsb' 16 4 = 0 :=
  BitVec.toFin_inj (y := 0)

theorem amtField_eq_zero_iff (w : CmdWord) : amtField w = 0 ↔ w.extractLsb' 0 6 = 0 :=
  BitVec.toFin_inj (y := 0)

/-- The unread fields, class by class: each class reads its own two or three fields. -/
theorem unreadNonzero_iff (op : Opcode) (w : CmdWord) :
    UnreadNonzero op w ↔
      (op.cls = .r3 ∧ (zField w ≠ 0 ∨ amtField w ≠ 0)) ∨
      (op.cls = .r2 ∧ (rs2Field w ≠ 0 ∨ zField w ≠ 0 ∨ amtField w ≠ 0)) ∨
      (op.cls = .ra ∧ (rs2Field w ≠ 0 ∨ zField w ≠ 0)) := by
  unfold UnreadNonzero
  cases op.cls with
  | r3 => simp only [reduceCtorEq, or_false, true_and, false_and]
  | r2 => simp only [reduceCtorEq, or_false, or_true, true_and, false_and, false_or]; tauto
  | ra => simp only [reduceCtorEq, or_true, or_self, true_and, false_and, false_or]; tauto

/-- Settles O7: a reserved `OP` has no opcode; any other has one, whose class fixes the unread fields. -/
theorem decodeReportsTheFirstFailedCheck : Obligations.DecodeReportsTheFirstFailedCheck := by
  intro w opBits rs2 z amt reserved unreadNonzero shlFar
  have codes : decode 0 = .error .reservedOpcode ∧ Machine.causeCode .reservedOpcode = 1 ∧
      Machine.causeCode .nonzeroReservedField = 2 ∧ Machine.causeCode .shlAmountRange = 3 :=
    ⟨decode_of_reserved rfl, rfl, rfl, rfl⟩
  have hreserved : Opcode.ofBits (opField w) = none ↔ reserved := ofBits_eq_none_iff _
  cases hop : Opcode.ofBits (opField w) with
  | none =>
    have hr : reserved := hreserved.mp hop
    exact ⟨fun _ => decode_of_reserved hop, fun h => absurd hr h, fun h => absurd hr h,
      fun h => absurd hr h, codes⟩
  | some op =>
    have hr : ¬ reserved := fun h => nomatch hop.symm.trans (hreserved.mpr h)
    have hbits : op.bits = opBits := bits_of_ofBits _ _ hop
    have hunread : UnreadNonzero op w ↔ unreadNonzero := by
      simp only [unreadNonzero_iff, cls_eq_r3_iff, cls_eq_r2_iff, cls_eq_ra_iff, hbits, ne_eq,
        rs2Field_eq_zero_iff, amtField_eq_zero_iff]
      rfl
    have hfar : (op = .shl ∧ 32 < (amtField w).val) ↔ shlFar := by
      rw [eq_shl_iff, hbits]
      rfl
    rw [← hunread, ← hfar]
    refine ⟨fun h => absurd h hr, fun _ => decode_of_unreadNonzero hop, fun _ hu hs => ?_,
      fun _ hu hs => ?_, codes⟩
    · rw [decode_of_unreadZero hop hu, if_pos hs]
    · exact ⟨_, by rw [decode_of_unreadZero hop hu, if_neg hs]⟩

end Sys2Proof
end

section
/-! PROOF. The word of format C as its shifted fields (30_encoding.md R48). -/

namespace Sys2Proof

/-- The concatenation shifts each field past the fields below it. -/
theorem formatC_toNat_eq_or (op : BitVec 4) (rd rs1 rs2 : RegIdx) (z : BitVec 10) (n : Amount) :
    (formatC op rd rs1 rs2 z n).toNat = op.toNat <<< 28 ||| rd.val <<< 24 ||| rs1.val <<< 20 |||
      rs2.val <<< 16 ||| z.toNat <<< 6 ||| n.val := by
  unfold formatC
  refine (BitVec.toNat_append _ _).trans ?_
  simp only [BitVec.toNat_append, Nat.shiftLeft_or_distrib, ← Nat.shiftLeft_add]
  rfl

/-- The reserved field `Z` is zero in the word of every command. -/
theorem zField_encode (i : Instr) : zField (encode i) = 0 := by
  cases i <;> exact zField_formatC ..

/-- Settles O8: the shifted fields, then the six fields read back one by one. -/
theorem formatCWordIsTheShiftedFields : Obligations.FormatCWordIsTheShiftedFields :=
  ⟨fun op rd rs1 rs2 z n => ⟨formatC_toNat_eq_or op rd rs1 rs2 z n,
      opField_formatC op rd rs1 rs2 z n,
      congrArg Fin.val (rdField_formatC op rd rs1 rs2 z n),
      congrArg Fin.val (rs1Field_formatC op rd rs1 rs2 z n),
      congrArg Fin.val (rs2Field_formatC op rd rs1 rs2 z n),
      zField_formatC op rd rs1 rs2 z n,
      congrArg Fin.val (amtField_formatC op rd rs1 rs2 z n)⟩,
    zField_encode⟩

end Sys2Proof
end

section
/-! PROOF. Serving the words of commands, and of the pseudo-instructions' expansions (30_encoding.md R59). -/

namespace Sys2Proof

/-- A format C word whose unread fields are zero decodes to the command of its fields. -/
theorem decode_formatC (op : Opcode) (rd rs1 rs2 : RegIdx) (n : Amount)
    (hamt : op.cls = .r3 ∨ op.cls = .r2 → n = 0) (hrs2 : op.cls = .r2 ∨ op.cls = .ra → rs2 = 0)
    (hshl : op = .shl → n.val ≤ 32) :
    decode (formatC op.bits rd rs1 rs2 0 n) = .ok (Instr.ofFields op rd rs1 rs2 n) := by
  have hop : Opcode.ofBits (opField (formatC op.bits rd rs1 rs2 0 n)) = some op := by
    rw [opField_formatC, ofBits_bits]
  have hunread : ¬ UnreadNonzero op (formatC op.bits rd rs1 rs2 0 n) := by
    rw [UnreadNonzero, zField_formatC, amtField_formatC, rs2Field_formatC]
    tauto
  rw [decode_of_unreadZero hop hunread, rdField_formatC, rs1Field_formatC, rs2Field_formatC,
    amtField_formatC, if_neg fun h => Nat.not_lt.mpr (hshl h.1) h.2]

/-- The word of a well-formed command decodes to it: the encoder leaves the unread fields zero. -/
theorem decode_encode {i : Instr} (h : i.wellFormed = true) : decode (encode i) = .ok i := by
  cases i with
  | shl rd rs1 n =>
    exact decode_formatC .shl rd rs1 0 n (by simp [Opcode.cls]) (fun _ => rfl) fun _ => of_decide_eq_true h
  | rotl | rotr => exact decode_formatC _ _ _ 0 _ (by simp [Opcode.cls]) (fun _ => rfl) nofun
  | add | sub | mul | xor | and => exact decode_formatC _ _ _ _ 0 (fun _ => rfl) (by simp [Opcode.cls]) nofun
  | neg | inc | not | mod2 => exact decode_formatC _ _ _ 0 0 (fun _ => rfl) (fun _ => rfl) nofun

end Sys2Proof

namespace Sys2Proof.Machine

/-! ### Serving commands -/

theorem handle_cmd {i : Instr} (h : i.wellFormed = true) (s : State) :
    handle (.request (Request.ofCmd (encode i))) s =
      .next ((s.writeV i.dest (resultOf i s.readV)).respond Response.zero) := by
  have hs : serve (Request.ofCmd (encode i)) s = serveCmd (encode i) s := rfl
  simp only [handle, hs, serveCmd, decode_encode h, exec_wellFormed h, answer, giveResponse]

/-- Serving a list of commands is performing the first and serving the rest. -/
theorem serveAll_cmd_cons {i : Instr} (h : i.wellFormed = true) (is : List Instr) (s : State) :
    s.serveAll (cmdEvents (i :: is)) =
      ((s.writeV i.dest (resultOf i s.readV)).respond Response.zero).serveAll (cmdEvents is) := by
  obtain ⟨t, ht, hrun⟩ := serveAll_cons s (.request (Request.ofCmd (encode i))) (cmdEvents is)
  rw [handle_cmd h] at ht
  obtain rfl := Host.Outcome.next.inj ht
  exact hrun

/-- Serving one command writes its result to its destination and leaves the error registers. -/
theorem serveAll_cmd {i : Instr} (h : i.wellFormed = true) (s : State) :
    ∃ t, s.serveAll (cmdEvents [i]) = .next t ∧
      (∀ r, t.readV r = if r = i.dest then resultOf i s.readV else s.readV r) ∧
      t.status = s.status ∧ t.errcmd = s.errcmd := by
  refine ⟨_, (serveAll_cmd_cons h [] s).trans (serveAll_nil _), fun r => ?_, rfl, rfl⟩
  rw [readV_inbox, readV_respond, readV_writeV]

/-! ### What the operations of the expansions compute -/

theorem rotl64_zero (a : Value) : rotl64 a 0 = a := rfl

theorem rotl64_32 (a : Value) : rotl64 a 32 = ⟨a.lo, a.hi⟩ := rfl

theorem xor64_self (a : Value) : xor64 a a = Value.zero := by
  simp [xor64, Value.zero]

theorem and64_self (a : Value) : and64 a a = a := by
  simp [and64]

theorem add64_zero_one : add64 Value.zero Value.one = Value.one := by decide

/-! ### The pseudo-instructions -/

theorem serve_clr (s : State) (vd : RegIdx) :
    ∃ t, s.serveAll (cmdEvents (expand (.clr vd))) = .next t ∧
      ∀ r, t.readV r = if r = vd then Value.zero else s.readV r := by
  obtain ⟨t, ht, hread, -⟩ := serveAll_cmd (i := .xor vd vd vd) rfl s
  exact ⟨t, ht, fun r => by rw [hread, resultOf, xor64_self, Instr.dest]⟩

/-- `nop` writes back what `V0` holds. -/
theorem serve_nop (s : State) :
    ∃ t, s.serveAll (cmdEvents (expand .nop)) = .next t ∧
      (∀ r, t.readV r = s.readV r) ∧ t.status = s.status ∧ t.errcmd = s.errcmd := by
  obtain ⟨t, ht, hread, herr⟩ := serveAll_cmd (i := .and 0 0 0) rfl s
  refine ⟨t, ht, fun r => ?_, herr⟩
  rw [hread, resultOf, and64_self, Instr.dest]
  split
  next hr => rw [hr]
  next => rfl

/-- `ldone` clears the register and then increments it. -/
theorem serve_ldone (s : State) (vd : RegIdx) :
    ∃ t, s.serveAll (cmdEvents (expand (.ldone vd))) = .next t ∧
      ∀ r, t.readV r = if r = vd then Value.one else s.readV r := by
  obtain ⟨t, ht, hread, -⟩ := serveAll_cmd (i := .inc vd vd) rfl
    ((s.writeV vd (xor64 (s.readV vd) (s.readV vd))).respond Response.zero)
  refine ⟨t, (serveAll_cmd_cons (i := .xor vd vd vd) rfl [.inc vd vd] s).trans ht, fun r => ?_⟩
  rw [hread, resultOf, Instr.dest, xor64_self]
  split
  next => rw [readV_respond, readV_writeV_same, add64_zero_one]
  next hr => rw [readV_respond, readV_writeV_ne s _ hr]

/-- Settles O49: each expansion is served command by command; ROTL by 0 is the identity, ROTL by 32 swaps
the halves. -/
theorem pseudoInstructionsHaveTheirEffects : Obligations.PseudoInstructionsHaveTheirEffects := by
  refine ⟨fun s vd vs => ?mov, fun s vd vs => ?swaph, serve_clr, serve_nop, serve_ldone⟩
  case mov =>
    obtain ⟨t, ht, hread, -⟩ := serveAll_cmd (i := .rotl vd vs 0) rfl s
    have hcopy : resultOf (.rotl vd vs 0) s.readV = s.readV vs := rotl64_zero _
    exact ⟨t, ht, fun r => by rw [hread, hcopy, Instr.dest]⟩
  case swaph =>
    obtain ⟨t, ht, hread, -⟩ := serveAll_cmd (i := .rotl vd vs 32) rfl s
    have hswap : resultOf (.rotl vd vs 32) s.readV = ⟨(s.readV vs).lo, (s.readV vs).hi⟩ := rotl64_32 _
    exact ⟨t, ht, fun r => by rw [hread, hswap, Instr.dest]⟩

end Sys2Proof.Machine
end

section
/-! PROOF. A value as one 64-bit word, on which the adder is addition (41_adder.md R60, R62, R63). -/

namespace Sys2Proof

/-- The 64 bits of a value, `hi` above `lo` (00_scope.md R7). -/
def Value.word (v : Value) : BitVec 64 := v.hi ++ v.lo

theorem word_toNat (v : Value) : v.word.toNat = v.val := toNat_append_add v.hi v.lo

theorem extractLsb'_word_hi (v : Value) : v.word.extractLsb' 32 32 = v.hi :=
  BitVec.extractLsb'_append_eq_left

theorem extractLsb'_word_lo (v : Value) : v.word.extractLsb' 0 32 = v.lo :=
  BitVec.extractLsb'_append_eq_right

theorem word_injective : Function.Injective Value.word := by
  intro a b h
  have hhi : a.hi = b.hi := by rw [← extractLsb'_word_hi a, h, extractLsb'_word_hi]
  have hlo : a.lo = b.lo := by rw [← extractLsb'_word_lo a, h, extractLsb'_word_lo]
  exact congrArg₂ Value.mk hhi hlo

@[simp] theorem word_zero : Value.zero.word = 0#64 := rfl
@[simp] theorem word_one : Value.one.word = 1#64 := rfl

/-! ### The two limb sums of a half, with the carry `c` into it (R60) -/

/-- The sum of the low limbs: `limb0` for the low halves, `limb2` for the high ones. -/
def lowLimbSum (x y : Half) (c : Nat) : Nat := low16 x.toNat + low16 y.toNat + c

/-- The sum of the high limbs, which takes the carry of the low one: `limb1` and `limb3`. -/
def highLimbSum (x y : Half) (c : Nat) : Nat :=
  high16 x.toNat + high16 y.toNat + carry (lowLimbSum x y c)

theorem highLimbSum_eq_div (x y : Half) (c : Nat) :
    highLimbSum x y c = (x.toNat + y.toNat + c) / 2 ^ 16 := by
  have := x.isLt
  have := y.isLt
  simp only [highLimbSum, lowLimbSum, low16, high16, carry, Nat.shiftRight_eq_div_pow]
  omega

/-- What leaves the high limb is what leaves the half. -/
theorem carry_highLimbSum (x y : Half) (c : Nat) :
    carry (highLimbSum x y c) = (x.toNat + y.toNat + c) / 2 ^ 32 := by
  rw [carry, highLimbSum_eq_div, Nat.shiftRight_eq_div_pow, Nat.div_div_eq_div_mul, ← pow_add]

theorem halfOfLimbs_limbSums (x y : Half) (c : Nat) :
    (halfOfLimbs (highLimbSum x y c) (lowLimbSum x y c)).toNat = (x.toNat + y.toNat + c) % 2 ^ 32 := by
  have hlow : lowLimbSum x y c % 2 ^ 16 = (x.toNat + y.toNat + c) % 2 ^ 16 := by
    simp only [lowLimbSum, low16]
    omega
  rw [halfOfLimbs_toNat, hlow, highLimbSum_eq_div]
  omega

end Sys2Proof

namespace Sys2Proof.Machine

/-- The low halves are summed without a carry into them, the high halves with the carry out of the low ones. -/
theorem add64_eq_limbSums (a b : Value) :
    add64 a b =
      ⟨halfOfLimbs (highLimbSum a.hi b.hi (carry (highLimbSum a.lo b.lo 0)))
          (lowLimbSum a.hi b.hi (carry (highLimbSum a.lo b.lo 0))),
        halfOfLimbs (highLimbSum a.lo b.lo 0) (lowLimbSum a.lo b.lo 0)⟩ := rfl

/-- The carry out of the top limb is discarded, so the sum is modulo 2^64. -/
theorem add64_val (a b : Value) : (add64 a b).val = (a.val + b.val) % 2 ^ 64 := by
  rw [add64_eq_limbSums]
  simp only [Value.val, halfOfLimbs_limbSums, carry_highLimbSum]
  omega

@[simp] theorem word_add64 (a b : Value) : (add64 a b).word = a.word + b.word := by
  apply BitVec.eq_of_toNat_eq
  simp only [BitVec.toNat_add, word_toNat, add64_val]

@[simp] theorem word_not64 (a : Value) : (not64 a).word = ~~~a.word := BitVec.not_append.symm

/-- One plus the complement is the negation in two's complement. -/
@[simp] theorem word_neg64 (a : Value) : (neg64 a).word = -a.word := by
  rw [neg64, word_add64, word_one, word_not64, BitVec.neg_eq_not_add, BitVec.add_comm]

@[simp] theorem word_sub64 (a b : Value) : (sub64 a b).word = a.word - b.word := by
  rw [sub64, word_add64, word_neg64, BitVec.sub_eq_add_neg]

end Sys2Proof.Machine
end

section
/-! PROOF. The laws of the adder family (41_adder.md R65), as those of 64-bit words, and its silence about
overflow (R66, 43_bitwise.md R76). -/

namespace Sys2Proof.Machine

theorem sub64_self (a : Value) : sub64 a a = Value.zero :=
  word_injective (by rw [word_sub64, BitVec.sub_self, word_zero])

theorem neg64_neg64 (a : Value) : neg64 (neg64 a) = a :=
  word_injective (by rw [word_neg64, word_neg64, BitVec.neg_neg])

/-! ### Writing a register back -/

theorem writeV_writeV_same (s : State) (r : RegIdx) (v w : Value) :
    (s.writeV r v).writeV r w = s.writeV r w := by
  simp [State.writeV]

theorem writeV_readV (s : State) (r : RegIdx) : s.writeV r (s.readV r) = s := by
  simp [State.writeV, State.readV]

/-- The second NEG writes back what the register held before the first. -/
theorem exec_neg_twice (r : RegIdx) (s : State) :
    ∃ t, exec (.neg r r) s = .next t ∧ exec (.neg r r) t = .next s := by
  refine ⟨s.writeV r (neg64 (s.readV r)), exec_wellFormed rfl s, ?_⟩
  rw [exec_wellFormed rfl, Instr.dest, resultOf, readV_writeV_same, neg64_neg64, writeV_writeV_same,
    writeV_readV]

/-- Settles O13: a value is its 64-bit word, so the laws of the functions are those of words; those of the
commands follow. -/
theorem adderObeysTheDocumentsLaws : Obligations.AdderObeysTheDocumentsLaws := by
  refine ⟨fun a b => ?comm, fun a b c => ?assoc, fun a => ?zero, fun _ _ => rfl, sub64_self, neg64_neg64,
    fun rd r s => ?sub, exec_neg_twice⟩
  case comm => exact word_injective (by simp only [word_add64, BitVec.add_comm])
  case assoc => exact word_injective (by simp only [word_add64, BitVec.add_assoc])
  case zero => exact word_injective (by rw [word_add64, word_zero, BitVec.add_zero])
  case sub => rw [exec_wellFormed rfl, Instr.dest, resultOf, sub64_self]

@[simp] theorem writeV_errOut (s : State) (r : RegIdx) (v : Value) : (s.writeV r v).errOut = s.errOut := rfl

/-- Only SHL has a term that is not well formed. -/
theorem wellFormed_of_opcode_ne_shl {i : Instr} (h : i.opcode ≠ .shl) : i.wellFormed = true := by
  cases i with
  | shl => exact absurd rfl h
  | _ => rfl

/-- Settles O14: none of these commands is SHL, so each only writes its result to its destination. -/
theorem resultsAreNeverSignalled : Obligations.ResultsAreNeverSignalled := by
  intro i s hi
  have hshl : i.opcode ≠ .shl := fun h => absurd (h ▸ hi) (by decide)
  exact ⟨_, exec_wellFormed (wellFormed_of_opcode_ne_shl hshl) s, writeV_status .., writeV_errcmd ..,
    writeV_errOut ..⟩

end Sys2Proof.Machine
end

section
/-! PROOF. The two rotations undo each other (44_rotate.md R81): below 32 each is the other's complement to
32 with the halves swapped, and two left rotations whose amounts make 32 swap the halves. -/

namespace Sys2Proof.Machine

/-- What one half holds after left rotations by `m` and by `n`: no bit of `x` stays in it, and the bits of `y`
come from `n` upwards by the left shift and below `n` by the right one. -/
theorem half_of_rotations_by_32 {m n : Nat} (h : m + n = 32) (x y : Half) :
    (x <<< m ||| y >>> n) <<< n ||| (y <<< m ||| x >>> n) >>> m = y := by
  apply BitVec.eq_of_getLsbD_eq
  intro i hi
  have hx : x.getLsbD (n + (m + i)) = false := BitVec.getLsbD_of_ge _ _ (by omega)
  simp only [BitVec.getLsbD_or, BitVec.getLsbD_shiftLeft, BitVec.getLsbD_ushiftRight, hx]
  rcases Nat.lt_or_ge i n with hin | hin
  · have hm : m + i < 32 := by omega
    simp [hi, hin, hm]
  · have hm : ¬ m + i < 32 := by omega
    have hxm : i - n < m := by omega
    have hy : n + (i - n) = i := by omega
    simp [hi, Nat.not_lt.mpr hin, hm, hxm, hy]

theorem rotlBelow32_rotlBelow32 {m n : Nat} (h : m + n = 32) (a : Value) :
    rotlBelow32 (rotlBelow32 a m) n = ⟨a.lo, a.hi⟩ := by
  have hm : 32 - m = n := by omega
  have hn : 32 - n = m := by omega
  simp only [rotlBelow32, hm, hn, half_of_rotations_by_32 h]

/-- Below 32 a right rotation is the left one by the complement to 32, with the halves swapped. -/
theorem rotrBelow32_eq {m n : Nat} (h : m + n = 32) (a : Value) :
    rotrBelow32 a n = ⟨(rotlBelow32 a m).lo, (rotlBelow32 a m).hi⟩ := by
  have hm : 32 - m = n := by omega
  have hn : 32 - n = m := by omega
  simp only [rotrBelow32, rotlBelow32, hm, hn, BitVec.or_comm]

theorem rotlBelow32_swap (a : Value) (n : Nat) :
    rotlBelow32 ⟨a.lo, a.hi⟩ n = ⟨(rotlBelow32 a n).lo, (rotlBelow32 a n).hi⟩ := rfl

theorem rotlBelow32_rotrBelow32 {n : Nat} (h : n ≤ 32) (a : Value) :
    rotlBelow32 (rotrBelow32 a n) n = a := by
  have hn : 32 - n + n = 32 := Nat.sub_add_cancel h
  rw [rotrBelow32_eq hn, rotlBelow32_swap, rotlBelow32_rotlBelow32 hn]

theorem rotrBelow32_rotlBelow32 {n : Nat} (h : n ≤ 32) (a : Value) :
    rotrBelow32 (rotlBelow32 a n) n = a := by
  rw [rotrBelow32_eq (Nat.sub_add_cancel h), rotlBelow32_rotlBelow32 (Nat.add_sub_cancel' h)]

/-! ### The four cases of the amount -/

theorem rotr64_zero (a : Value) : rotr64 a 0 = a := rfl

theorem rotr64_32 (a : Value) : rotr64 a 32 = ⟨a.lo, a.hi⟩ := rfl

theorem rotl64_below {n : Nat} (h0 : 0 < n) (h : n < 32) (a : Value) : rotl64 a n = rotlBelow32 a n := by
  rw [rotl64, if_neg h0.ne', if_neg h.ne, if_neg h.not_gt]

theorem rotr64_below {n : Nat} (h0 : 0 < n) (h : n < 32) (a : Value) : rotr64 a n = rotrBelow32 a n := by
  rw [rotr64, if_neg h0.ne', if_neg h.ne, if_neg h.not_gt]

theorem rotl64_above {n : Nat} (h : 32 < n) (a : Value) : rotl64 a n = rotrBelow32 a (64 - n) := by
  rw [rotl64, if_neg (Nat.ne_zero_of_lt h), if_neg h.ne', if_pos h]

theorem rotr64_above {n : Nat} (h : 32 < n) (a : Value) : rotr64 a n = rotlBelow32 a (64 - n) := by
  rw [rotr64, if_neg (Nat.ne_zero_of_lt h), if_neg h.ne', if_pos h]

/-- Above 32 each rotation is the other one by `64 - n`, so there the two laws change places. -/
theorem rotations_cancel (a : Value) (n : Nat) :
    rotl64 (rotr64 a n) n = a ∧ rotr64 (rotl64 a n) n = a := by
  rcases Nat.eq_zero_or_pos n with rfl | h0
  · simp only [rotl64_zero, rotr64_zero, and_self]
  · rcases Nat.lt_trichotomy n 32 with h | rfl | h
    · simp only [rotl64_below h0 h, rotr64_below h0 h, rotlBelow32_rotrBelow32 h.le,
        rotrBelow32_rotlBelow32 h.le, and_self]
    · simp only [rotl64_32, rotr64_32, and_self]
    · have h' : 64 - n ≤ 32 := by omega
      simp only [rotl64_above h, rotr64_above h, rotlBelow32_rotrBelow32 h', rotrBelow32_rotlBelow32 h',
        and_self]

/-- Settles O26: the rotations cancel for every amount; by 0 and by 32 ROTL has a branch of its own. -/
theorem rotationsUndoEachOther : Obligations.RotationsUndoEachOther :=
  ⟨fun a n => rotations_cancel a n.val, fun a => ⟨rotl64_zero a, rotl64_32 a⟩⟩

end Sys2Proof.Machine
end

section
/-! PROOF. The cause an illegal word raises, and what is recorded of it (60_exceptions.md R84, R85). -/

namespace Sys2Proof.Machine

/-! ### A step on an illegal command -/

theorem serve_of_illegal {q : Request} {c : IllegalCause} (hk : q.kind = 0b00)
    (hd : decode q.cmd = .error c) (s : State) :
    serve q s = .next (raiseIllegal c q.cmd s, Response.zero) := by
  have hcmd : ReqKind.ofBits q.kind = .cmd := by rw [hk]; rfl
  simp only [serve, hcmd, serveCmd, hd]

theorem raiseIllegal_of_noError {s : State} (h : statusErr s.status = 0) (c : IllegalCause) (w : CmdWord) :
    raiseIllegal c w s = { s with status := statusRecord s.status (causeCode c), errcmd := w } := if_pos h

/-- On a machine without an error the step records the cause in `STATUS` and the word in `ERRCMD`. -/
theorem step_records_illegal {s : State} {q : Request} {rest : List HostEvent} {c : IllegalCause}
    (hin : s.inbox = .request q :: rest) (hk : q.kind = 0b00) (herr : statusErr s.status = 0)
    (hd : decode q.cmd = .error c) :
    ∃ t, step s = .next t ∧ t.status = statusRecord s.status (causeCode c) ∧ t.errcmd = q.cmd := by
  refine ⟨_, step_of_serve hin (serve_of_illegal hk hd _), ?_⟩
  rw [raiseIllegal_of_noError (s := { s with inbox := rest }) herr]
  exact ⟨rfl, rfl⟩

/-! ### The unread fields, field by field (R84) and class by class (30_encoding.md R54) -/

/-- Outside the reserved opcodes, `AMT` is unread in the classes R3 and R2. -/
theorem amt_unread_iff : ∀ b : BitVec 4, b ∉ [0x0#4, 0xD#4, 0xE#4, 0xF#4] →
    (b ∉ [0xA#4, 0xB#4, 0xC#4] ↔
      b ∈ [0x1#4, 0x2#4, 0x5#4, 0x6#4, 0x7#4] ∨ b ∈ [0x3#4, 0x4#4, 0x8#4, 0x9#4]) := by decide

/-- `RS2` is unread in the classes R2 and RA. -/
theorem rs2_unread_iff (b : BitVec 4) :
    b ∈ [0x3#4, 0x4#4, 0x8#4, 0x9#4, 0xA#4, 0xB#4, 0xC#4] ↔
      b ∈ [0x3#4, 0x4#4, 0x8#4, 0x9#4] ∨ b ∈ [0xA#4, 0xB#4, 0xC#4] :=
  List.mem_append (s := [0x3#4, 0x4#4, 0x8#4, 0x9#4])

/-- The propositions `Z`, `A` and `R` stand for a nonzero field `Z`, `AMT` and `RS2`. An opcode that is not
reserved has a class, and no class reads `Z`. -/
theorem unread_by_field_iff_by_class {b : BitVec 4} (hb : b ∉ [0x0#4, 0xD#4, 0xE#4, 0xF#4]) (Z A R : Prop) :
    (Z ∨ (A ∧ b ∉ [0xA#4, 0xB#4, 0xC#4]) ∨ (R ∧ b ∈ [0x3#4, 0x4#4, 0x8#4, 0x9#4, 0xA#4, 0xB#4, 0xC#4])) ↔
      (b ∈ [0x1#4, 0x2#4, 0x5#4, 0x6#4, 0x7#4] ∧ (Z ∨ A)) ∨
      (b ∈ [0x3#4, 0x4#4, 0x8#4, 0x9#4] ∧ (R ∨ Z ∨ A)) ∨
      (b ∈ [0xA#4, 0xB#4, 0xC#4] ∧ (R ∨ Z)) := by
  have hamt := amt_unread_iff b hb
  have hclass : b ∈ [0x1#4, 0x2#4, 0x5#4, 0x6#4, 0x7#4] ∨ b ∈ [0x3#4, 0x4#4, 0x8#4, 0x9#4] ∨
      b ∈ [0xA#4, 0xB#4, 0xC#4] := by tauto
  rw [hamt, rs2_unread_iff]
  tauto

/-- Settles O32: the decoder reports the first failed check, and the step records its code `c` above `ERR`,
as `STATUS = 2 * c + 1`. -/
theorem eachCauseIsRecordedWithItsWord : Obligations.EachCauseIsRecordedWithItsWord := by
  intro s q rest hin hk hst op rs2 z amt reserved unreadNonzero shlFar
  have hrecord (c : IllegalCause) (hd : decode q.cmd = .error c) :
      ∃ t, step s = .next t ∧ t.status = statusRecord 0 (causeCode c) ∧ t.errcmd = q.cmd :=
    hst ▸ step_records_illegal hin hk (hst ▸ rfl) hd
  obtain ⟨hreserved, hunread, hfar, -⟩ := decodeReportsTheFirstFailedCheck q.cmd
  refine ⟨fun h => ?_, fun h hu => ?_, fun h hu hs => ?_⟩
  · exact hrecord _ (hreserved h)
  · exact hrecord _ (hunread h ((unread_by_field_iff_by_class h _ _ _).mp hu))
  · exact hrecord _ (hfar h (mt (unread_by_field_iff_by_class h _ _ _).mpr hu) hs)

end Sys2Proof.Machine
end

section
/-! PROOF. What an event does to the error registers (10_state.md R18 to R20, 60_exceptions.md R83, R85): said
once for a request and once for a step, then the invariant, who may change them, and the record they hold. -/

namespace Sys2Proof.Machine

/-! ### Request kinds and illegal requests, on the bits (20_memory.md R27, 60_exceptions.md R83) -/

theorem ofBits_eq_cmd_iff : ∀ b : BitVec 2, ReqKind.ofBits b = .cmd ↔ b = 0b00 := by decide

theorem illegal_of_error {q : Request} {c : IllegalCause} (hk : q.kind = 0b00)
    (hd : decode q.cmd = .error c) : q.illegal = some (c, q.cmd) := by
  simp only [Request.illegal, (ofBits_eq_cmd_iff _).mpr hk, hd]

theorem illegal_of_ok {q : Request} {i : Instr} (hd : decode q.cmd = .ok i) : q.illegal = none := by
  unfold Request.illegal
  split
  · rw [hd]
  all_goals rfl

theorem illegal_of_kind_ne_cmd {q : Request} (hk : q.kind ≠ 0b00) : q.illegal = none := by
  unfold Request.illegal
  split
  next h => exact absurd ((ofBits_eq_cmd_iff _).mp h) hk
  all_goals rfl

/-- An illegal request is a CMD request whose word does not decode. -/
theorem of_illegal_eq_some {q : Request} {c : IllegalCause} {w : CmdWord} (h : q.illegal = some (c, w)) :
    q.kind = 0b00 ∧ decode q.cmd = .error c ∧ w = q.cmd := by
  by_cases hk : q.kind = 0b00
  · cases hd : decode q.cmd with
    | ok i => exact nomatch (illegal_of_ok hd).symm.trans h
    | error c' =>
      cases (illegal_of_error hk hd).symm.trans h
      exact ⟨hk, rfl, rfl⟩
  · exact nomatch (illegal_of_kind_ne_cmd hk).symm.trans h

/-! ### The error registers after a request, and after a step -/

/-- A request records itself where it is illegal and the first; otherwise it leaves the error registers. -/
theorem serve_errorRegs {q : Request} {s t : State} {r : Response} (h : serve q s = .next (t, r)) :
    (t.status = s.status ∧ t.errcmd = s.errcmd ∧ (q.illegal = none ∨ statusErr s.status = 1)) ∨
    ∃ c, q.illegal = some (c, q.cmd) ∧ statusErr s.status = 0 ∧
      t.status = statusRecord s.status (causeCode c) ∧ t.errcmd = q.cmd := by
  obtain ⟨t', r', h', hc⟩ := serve_cases q s
  rw [h] at h'
  obtain ⟨rfl, rfl⟩ := Prod.mk.inj (Host.Outcome.next.inj h')
  have notCmd (k : ReqKind) (hk : ReqKind.ofBits q.kind = k) (hne : k ≠ .cmd) : q.illegal = none :=
    illegal_of_kind_ne_cmd fun h0 => hne (hk.symm.trans ((ofBits_eq_cmd_iff _).mpr h0))
  rcases hc with ⟨i, -, hd, rfl, -⟩ | ⟨c, hk, hd, rfl, -⟩ | ⟨hk, rfl, -⟩ | ⟨hk, rfl, -⟩ | ⟨hk, rfl, -⟩
  case inl => exact .inl ⟨rfl, rfl, .inl (illegal_of_ok hd)⟩
  case inr.inl =>
    rcases raiseIllegal_cases c q.cmd s with ⟨herr, hraise⟩ | ⟨herr, hraise⟩ <;> rw [hraise]
    · exact .inr ⟨c, illegal_of_error ((ofBits_eq_cmd_iff _).mp hk) hd, herr, rfl, rfl⟩
    · exact .inl ⟨rfl, rfl, .inr herr⟩
  all_goals exact .inl ⟨rfl, rfl, .inl (notCmd _ hk nofun)⟩

/-- A step leaves the error registers, or resets them, or records the first illegal command. -/
theorem step_errorRegs {s t : State} (h : step s = .next t) :
    (t.status = s.status ∧ t.errcmd = s.errcmd) ∨
    (∃ fl rest, s.inbox = .reset fl :: rest ∧ t.status = 0 ∧ t.errcmd = 0) ∨
    ∃ q rest c, s.inbox = .request q :: rest ∧ q.illegal = some (c, q.cmd) ∧ statusErr s.status = 0 ∧
      t.status = statusRecord s.status (causeCode c) ∧ t.errcmd = q.cmd := by
  rcases step_cases s with ⟨-, hs⟩ | ⟨q, rest, t', r, hin, hserve, hs⟩ | ⟨fl, rest, hin, hs⟩ <;>
    obtain rfl := Host.Outcome.next.inj (hs.symm.trans h)
  · exact .inl ⟨rfl, rfl⟩
  · rcases serve_errorRegs hserve with ⟨hst, hcmd, -⟩ | ⟨c, hrecord⟩
    · exact .inl ⟨hst, hcmd⟩
    · exact .inr (.inr ⟨q, rest, c, hin, hrecord⟩)
  · exact .inr (.inl ⟨fl, rest, hin, rfl, rfl⟩)

/-! ### The invariant of the error registers -/

theorem statusLegal_congr {s t : State} (hst : t.status = s.status) (hcmd : t.errcmd = s.errcmd) :
    t.statusLegal = s.statusLegal := by
  simp only [State.statusLegal, hst, hcmd]

theorem statusLegal_of_zero {s : State} (hst : s.status = 0) (hcmd : s.errcmd = 0) :
    s.statusLegal = true := by
  rw [State.statusLegal, hst, hcmd]
  rfl

theorem statusReserved_of_statusLegal {s : State} (h : s.statusLegal = true) :
    statusReserved s.status = 0 := by
  rw [State.statusLegal, Bool.and_eq_true] at h
  exact eq_of_beq h.1

/-- A record is legal where the word recorded is illegal for the cause recorded. -/
theorem statusLegal_of_record {s t : State} {c : IllegalCause} (h : s.statusLegal = true)
    (hst : t.status = statusRecord s.status (causeCode c)) (hd : decode t.errcmd = .error c) :
    t.statusLegal = true := by
  simp [State.statusLegal, hst, hd, statusReserved_of_statusLegal h]

/-- Settles O35: the registers stay, or are zero, or hold an illegal word with its cause. -/
theorem everyStepKeepsStatusLegal : Obligations.EveryStepKeepsStatusLegal := by
  intro s t hlegal hstep
  rcases step_errorRegs hstep with ⟨hst, hcmd⟩ | ⟨-, -, -, hst, hcmd⟩ | ⟨q, -, c, -, hill, -, hst, hcmd⟩
  · exact (statusLegal_congr hst hcmd).trans hlegal
  · exact statusLegal_of_zero hst hcmd
  · obtain ⟨-, hd, -⟩ := of_illegal_eq_some hill
    exact statusLegal_of_record hlegal hst (hcmd ▸ hd)

/-- Settles O36: both registers are zero. -/
theorem statusLegalAtReset : Obligations.StatusLegalAtReset :=
  statusLegal_of_zero reset_status reset_errcmd

/-- Settles O34: of the three things a step can do to the error registers, the first changes nothing. -/
theorem onlyFirstIllegalCommandOrResetChangesStatus :
    Obligations.OnlyFirstIllegalCommandOrResetChangesStatus := by
  intro s t hstep hchanged
  rcases step_errorRegs hstep with ⟨hst, hcmd⟩ | ⟨fl, rest, hin, -⟩ | ⟨q, rest, c, hin, hill, herr, -⟩
  · exact absurd hchanged (not_or.mpr ⟨not_not.mpr hst, not_not.mpr hcmd⟩)
  · exact .inl ⟨fl, rest, hin⟩
  · obtain ⟨hk, hd, -⟩ := of_illegal_eq_some hill
    exact .inr ⟨q, rest, c, hin, hk, hd, herr⟩

/-! ### The record of the first illegal command (R20) -/

theorem holdsRecord_congr {s t : State} (hst : t.status = s.status) (hcmd : t.errcmd = s.errcmd)
    (e : Option (IllegalCause × CmdWord)) : t.holdsRecord e ↔ s.holdsRecord e := by
  cases e <;> simp only [State.holdsRecord, hst, hcmd]

/-- On a cleared `STATUS` the record is the number the statement gives. -/
theorem statusRecord_zero (c : IllegalCause) :
    statusRecord 0 (causeCode c) = BitVec.ofNat 32 (2 * (causeCode c).toNat + 1) := by
  cases c <;> rfl

theorem statusErr_of_holdsRecord_some {s : State} {c : IllegalCause} {w : CmdWord}
    (h : s.holdsRecord (some (c, w))) : statusErr s.status = 1 := by
  rw [h.1, ← statusRecord_zero, statusErr_record]

/-- The first illegal command after one event more, in one step. -/
theorem firstIllegal_cons (before : Option (IllegalCause × CmdWord)) (e : HostEvent) (es : List HostEvent) :
    firstIllegal before (e :: es) = firstIllegal (firstIllegal before [e]) es := by
  cases e <;> cases before <;> rfl

/-- A request without an error before it leaves its own record, if it is illegal. -/
theorem serve_holdsRecord_none {q : Request} {s t : State} {r : Response} (h : serve q s = .next (t, r))
    (hs : s.holdsRecord none) : t.holdsRecord q.illegal := by
  obtain ⟨hst0, hcmd0⟩ := hs
  rcases serve_errorRegs h with ⟨hst, hcmd, hno⟩ | ⟨c, hill, -, hst, hcmd⟩
  · have hnone : q.illegal = none := hno.resolve_right (by rw [hst0]; decide)
    rw [hnone]
    exact ⟨hst.trans hst0, hcmd.trans hcmd0⟩
  · rw [hill]
    exact ⟨by rw [hst, hst0, statusRecord_zero], hcmd⟩

/-- A request after an error leaves its record. -/
theorem serve_holdsRecord_some {q : Request} {s t : State} {r : Response} {e : IllegalCause × CmdWord}
    (h : serve q s = .next (t, r)) (hs : s.holdsRecord (some e)) : t.holdsRecord (some e) := by
  rcases serve_errorRegs h with ⟨hst, hcmd, -⟩ | ⟨-, -, herr, -⟩
  · exact (holdsRecord_congr hst hcmd _).mpr hs
  · exact absurd ((statusErr_of_holdsRecord_some hs).symm.trans herr) (by decide)

theorem handle_holdsRecord {e : HostEvent} {s t : State} {before : Option (IllegalCause × CmdWord)}
    (h : handle e s = .next t) (hs : s.holdsRecord before) : t.holdsRecord (firstIllegal before [e]) := by
  rcases handle_cases e s with ⟨q, t', r, rfl, hserve, hh⟩ | ⟨fl, rfl, hh⟩ <;>
    obtain rfl := Host.Outcome.next.inj (hh.symm.trans h)
  · cases before with
    | none => exact (holdsRecord_congr (s := t') rfl rfl _).mpr (serve_holdsRecord_none hserve hs)
    | some e => exact (holdsRecord_congr (s := t') rfl rfl _).mpr (serve_holdsRecord_some hserve hs)
  · exact ⟨rfl, rfl⟩

theorem serveAll_holdsRecord (es : List HostEvent) (s : State) (before : Option (IllegalCause × CmdWord))
    (hs : s.holdsRecord before) : ∃ t, s.serveAll es = .next t ∧ t.holdsRecord (firstIllegal before es) := by
  induction es generalizing s before with
  | nil => exact ⟨_, serveAll_nil s, (holdsRecord_congr rfl rfl before).mpr hs⟩
  | cons e es ih =>
    obtain ⟨t, ht, hrun⟩ := serveAll_cons s e es
    rw [hrun, firstIllegal_cons]
    exact ih t _ (handle_holdsRecord ht hs)

/-- Settles O37: a state without an error holds no record, and each event keeps the record up to date. -/
theorem errorRegistersHoldFirstIllegalSinceReset : Obligations.ErrorRegistersHoldFirstIllegalSinceReset :=
  fun s es hst hcmd => serveAll_holdsRecord es s none ⟨hst, hcmd⟩

end Sys2Proof.Machine
end

section
/-! PROOF. Encoding and decoding are inverse on the legal words (30_encoding.md R54, decision D7). -/

namespace Sys2Proof

/-- Settles O2, as the lemma on the words of the commands states it. -/
theorem decodeOfEncodeIsTheCommand : Obligations.DecodeOfEncodeIsTheCommand := fun _ h => decode_encode h

/-- The unread fields of an encoding are zero, so it is the format C word of all the fields. -/
theorem encode_ofFields {op : Opcode} {rs2 : RegIdx} {n : Amount} (rd rs1 : RegIdx)
    (hamt : op.cls = .r3 ∨ op.cls = .r2 → n = 0) (hrs2 : op.cls = .r2 ∨ op.cls = .ra → rs2 = 0) :
    encode (Instr.ofFields op rd rs1 rs2 n) = formatC op.bits rd rs1 rs2 0 n := by
  cases op with
  | add | sub | mul | xor | and => rw [hamt (.inl rfl)]; rfl
  | neg | inc | not | mod2 => rw [hamt (.inr rfl), hrs2 (.inl rfl)]; rfl
  | rotl | rotr | shl => rw [hrs2 (.inr rfl)]; rfl

theorem encode_of_decode {w : CmdWord} {i : Instr} (h : decode w = .ok i) : encode i = w := by
  obtain ⟨op, hop, hz, hamt, hrs2, -, rfl⟩ := decode_ok h
  rw [encode_ofFields _ _ hamt hrs2, bits_of_ofBits _ _ hop, ← hz, formatC_fields]

/-- Settles O3: decoding fixes all six fields, and the word is theirs. -/
theorem decodedCommandHasOnlyThatWord : Obligations.DecodedCommandHasOnlyThatWord :=
  fun _ _ h => ⟨wellFormed_of_decode h, encode_of_decode h⟩

/-- Settles O1: each word is evaluated. -/
theorem sampleWordsDecodeAsListed : Obligations.SampleWordsDecodeAsListed := by
  unfold Obligations.SampleWordsDecodeAsListed
  decide

/-- Settles O50: each line and each word is evaluated. -/
theorem sampleListingsAndWords : Obligations.SampleListingsAndWords := by
  unfold Obligations.SampleListingsAndWords
  decide

end Sys2Proof
end

section
/-! PROOF. The match and mask table (30_encoding.md R52): a row's match and mask are format C words
themselves, so a hit is a condition on each field. -/

namespace Sys2Proof

theorem hit_iff (r : TableRow) (w : CmdWord) : r.hit w = true ↔ w &&& r.mask = r.pattern := beq_iff_eq

/-- Settles O5: a word that both rows match has the match of each under the mask of the other, and no two
rows of the table agree so. -/
theorem noWordMatchesTwoTableRows : Obligations.NoWordMatchesTwoTableRows := by
  intro w r1 r2 h1 h2 hit1 hit2
  have apart : ∀ r1 ∈ opcodeTable, ∀ r2 ∈ opcodeTable,
      r1.pattern &&& r2.mask = r2.pattern &&& r1.mask → r1 = r2 := by decide
  refine apart r1 h1 r2 h2 ?_
  rw [← (hit_iff r1 w).mp hit1, ← (hit_iff r2 w).mp hit2, BitVec.and_assoc, BitVec.and_assoc,
    BitVec.and_comm r1.mask]

/-- Two words are the same when their six fields are. -/
theorem eq_iff_fields (w v : CmdWord) : w = v ↔
    opField w = opField v ∧ rdField w = rdField v ∧ rs1Field w = rs1Field v ∧ rs2Field w = rs2Field v ∧
      zField w = zField v ∧ amtField w = amtField v := by
  refine ⟨fun h => h ▸ ⟨rfl, rfl, rfl, rfl, rfl, rfl⟩, fun ⟨hop, hrd, hrs1, hrs2, hz, hamt⟩ => ?_⟩
  rw [← formatC_fields w, ← formatC_fields v, hop, hrd, hrs1, hrs2, hz, hamt]

/-! ### The fields of a masked word are masked -/

section
variable (w v : CmdWord)

theorem toFin_extractLsb'_and (start len : Nat) : ((w &&& v).extractLsb' start len).toFin =
    (w.extractLsb' start len).toFin &&& (v.extractLsb' start len).toFin :=
  (congrArg BitVec.toFin BitVec.extractLsb'_and).trans (BitVec.toFin_and _ _)

theorem opField_and : opField (w &&& v) = opField w &&& opField v := BitVec.extractLsb'_and

theorem rdField_and : rdField (w &&& v) = rdField w &&& rdField v := toFin_extractLsb'_and w v 24 4

theorem rs1Field_and : rs1Field (w &&& v) = rs1Field w &&& rs1Field v := toFin_extractLsb'_and w v 20 4

theorem rs2Field_and : rs2Field (w &&& v) = rs2Field w &&& rs2Field v := toFin_extractLsb'_and w v 16 4

theorem zField_and : zField (w &&& v) = zField w &&& zField v := BitVec.extractLsb'_and

theorem amtField_and : amtField (w &&& v) = amtField w &&& amtField v := toFin_extractLsb'_and w v 0 6

end

/-! ### The masks of a field: none of its bits, all of them -/

theorem index_and_0 : ∀ r : RegIdx, r &&& 0 = 0 := by decide
theorem index_and_15 : ∀ r : RegIdx, r &&& 15 = r := by decide
theorem amount_and_0 : ∀ n : Amount, n &&& 0 = 0 := by decide
theorem amount_and_63 : ∀ n : Amount, n &&& 63 = n := by decide
theorem opBits_and_all (b : BitVec 4) : b &&& 0xF = b := BitVec.and_allOnes
theorem zBits_and_all (b : BitVec 10) : b &&& 0x3FF = b := BitVec.and_allOnes

/-- The two rows of SHL together ask for an amount up to 32. -/
theorem shl_amount_iff : ∀ n : Amount, (n &&& 32 = 0 ∨ n = 32) ↔ n.val ≤ 32 := by decide

/-! ### What a row asks of the fields -/

/-- The row of an opcode: it fixes `OP`, a zero `Z`, a zero `RS2` where the class does not read it, and the bits
of `AMT` under `mask`. -/
def rowOf (op : Opcode) (mask amt : Amount) : TableRow :=
  ⟨op, formatC op.bits 0 0 0 0 amt, formatC 0xF 0 0 (if op.cls = .r3 then 0 else 15) 0x3FF mask⟩

theorem op_rowOf (op : Opcode) (mask amt : Amount) : (rowOf op mask amt).op = op := rfl

theorem opcodeTable_eq_rowOf : opcodeTable = [
    rowOf .add 63 0, rowOf .sub 63 0, rowOf .neg 63 0, rowOf .inc 63 0, rowOf .mul 63 0, rowOf .xor 63 0,
    rowOf .and 63 0, rowOf .not 63 0, rowOf .mod2 63 0, rowOf .rotl 0 0, rowOf .rotr 0 0,
    rowOf .shl 32 0, rowOf .shl 63 32] := by decide

theorem hit_rowOf_iff (op : Opcode) (mask amt : Amount) (w : CmdWord) :
    (rowOf op mask amt).hit w = true ↔ opField w = op.bits ∧ (op.cls = .r3 ∨ rs2Field w = 0) ∧
      zField w = 0 ∧ amtField w &&& mask = amt := by
  rw [hit_iff, eq_iff_fields, rowOf]
  simp only [opField_and, rdField_and, rs1Field_and, rs2Field_and, zField_and, amtField_and,
    opField_formatC, rdField_formatC, rs1Field_formatC, rs2Field_formatC, zField_formatC, amtField_formatC,
    opBits_and_all, index_and_0, zBits_and_all, true_and]
  split
  next hcls => simp only [hcls, index_and_0, true_or, true_and]
  next hcls => simp only [hcls, index_and_15, false_or]

/-- A word decodes to a command of an opcode where it has the opcode's bits and passes the checks of its
class. -/
theorem exists_decode_iff (w : CmdWord) (op : Opcode) : (∃ i, decode w = .ok i ∧ i.opcode = op) ↔
    opField w = op.bits ∧ ¬ UnreadNonzero op w ∧ (op = .shl → (amtField w).val ≤ 32) := by
  constructor
  · rintro ⟨i, hd, rfl⟩
    obtain ⟨op, hop, hz, hamt, hrs2, hshl, rfl⟩ := decode_ok hd
    rw [opcode_ofFields]
    refine ⟨(bits_of_ofBits _ _ hop).symm, ?_, hshl⟩
    rw [UnreadNonzero]
    tauto
  · rintro ⟨hbits, hunread, hshl⟩
    have hop : Opcode.ofBits (opField w) = some op := hbits ▸ ofBits_bits op
    refine ⟨_, ?_, opcode_ofFields op (rdField w) (rs1Field w) (rs2Field w) (amtField w)⟩
    rw [decode_of_unreadZero hop hunread, if_neg fun h => Nat.not_lt.mpr (hshl h.1) h.2]

/-- A word matches a row of an opcode under the same conditions. -/
theorem exists_row_iff (w : CmdWord) (op : Opcode) : (∃ r ∈ opcodeTable, r.op = op ∧ r.hit w = true) ↔
    opField w = op.bits ∧ ¬ UnreadNonzero op w ∧ (op = .shl → (amtField w).val ≤ 32) := by
  cases op
  case shl =>
    simp [opcodeTable_eq_rowOf, op_rowOf, hit_rowOf_iff, unreadNonzero_iff, Opcode.cls, amount_and_63,
      ← shl_amount_iff]
    tauto
  all_goals
    simp [opcodeTable_eq_rowOf, op_rowOf, hit_rowOf_iff, unreadNonzero_iff, Opcode.cls, amount_and_63,
      amount_and_0]

/-- Settles O4: both sides are the same conditions on the fields. -/
theorem decodeAgreesWithMatchMaskTable : Obligations.DecodeAgreesWithMatchMaskTable :=
  fun w op => (exists_decode_iff w op).trans (exists_row_iff w op).symm

end Sys2Proof
end

section
/-! PROOF. The number of legal words (30_encoding.md R52): they are the encodings of the well-formed commands,
and those are counted opcode by opcode. -/

namespace Sys2Proof

/-- How many values the operand of an opcode beside `RD` and `RS1` takes in its well-formed commands. -/
def operandCount (op : Opcode) : Nat :=
  match op.cls with
  | .r3 => 16
  | .r2 => 1
  | .ra => if op = .shl then 33 else 64

/-- What a well-formed command consists of: its opcode, `RD`, `RS1`, and the operand beside them. -/
abbrev LegalFields := (op : Opcode) × RegIdx × RegIdx × Fin (operandCount op)

/-- The command of an opcode whose class reads the operand `k` as `RS2` or as `AMT`. -/
def commandOf (op : Opcode) (rd rs1 : RegIdx) (k : Fin (operandCount op)) : Instr :=
  .ofFields op rd rs1 (Fin.ofNat 16 k) (Fin.ofNat 64 k)

theorem wellFormed_commandOf (op : Opcode) (rd rs1 : RegIdx) (k : Fin (operandCount op)) :
    (commandOf op rd rs1 k).wellFormed = true := by
  cases op with
  | shl =>
    have hk : k.val < 33 := k.isLt
    exact decide_eq_true ((Nat.mod_le k.val 64).trans (Nat.le_of_lt_succ hk))
  | _ => rfl

/-- The fields an opcode reads are those of its command, and no other. -/
theorem ofFields_inj {op : Opcode} {rd rs1 rs2 rd' rs1' rs2' : RegIdx} {n n' : Amount} :
    Instr.ofFields op rd rs1 rs2 n = Instr.ofFields op rd' rs1' rs2' n' ↔
      rd = rd' ∧ rs1 = rs1' ∧ (op.cls = .r3 → rs2 = rs2') ∧ (op.cls = .ra → n = n') := by
  cases op <;> simp [Instr.ofFields, Opcode.cls]

theorem operandCount_le (op : Opcode) : (op.cls = .r3 → operandCount op ≤ 16) ∧
    (op.cls = .r2 → operandCount op ≤ 1) ∧ (op.cls = .ra → operandCount op ≤ 64) := by
  cases op <;> decide

/-- Within its range, an operand is what its class reads it as. -/
theorem operand_ext {op : Opcode} {k k' : Fin (operandCount op)}
    (hrs2 : op.cls = .r3 → Fin.ofNat 16 k.val = Fin.ofNat 16 k'.val)
    (hamt : op.cls = .ra → Fin.ofNat 64 k.val = Fin.ofNat 64 k'.val) : k = k' := by
  obtain ⟨hr3, hr2, hra⟩ := operandCount_le op
  have hk := k.isLt
  have hk' := k'.isLt
  apply Fin.ext
  cases hcls : op.cls with
  | r3 =>
    have hmod : k.val % 16 = k'.val % 16 := congrArg Fin.val (hrs2 hcls)
    have := hr3 hcls
    omega
  | r2 =>
    have := hr2 hcls
    omega
  | ra =>
    have hmod : k.val % 64 = k'.val % 64 := congrArg Fin.val (hamt hcls)
    have := hra hcls
    omega

/-- A legal word is the encoding of such a command. -/
theorem exists_commandOf {op : Opcode} {n : Amount} (rd rs1 rs2 : RegIdx) (h : op = .shl → n.val ≤ 32) :
    ∃ k, commandOf op rd rs1 k = Instr.ofFields op rd rs1 rs2 n := by
  cases op with
  | add | sub | mul | xor | and => exact ⟨rs2, by simp [commandOf, ofFields_inj, Opcode.cls]⟩
  | neg | inc | not | mod2 => exact ⟨⟨0, Nat.one_pos⟩, rfl⟩
  | rotl | rotr => exact ⟨n, by simp [commandOf, ofFields_inj, Opcode.cls]⟩
  | shl => exact ⟨⟨n.val, Nat.lt_succ_of_le (h rfl)⟩, by simp [commandOf, ofFields_inj, Opcode.cls]⟩

/-- The word of the fields of a well-formed command. -/
def LegalFields.word (x : LegalFields) : CmdWord := encode (commandOf x.1 x.2.1 x.2.2.1 x.2.2.2)

theorem LegalFields.decode_word (x : LegalFields) :
    decode x.word = .ok (commandOf x.1 x.2.1 x.2.2.1 x.2.2.2) :=
  decode_encode (wellFormed_commandOf ..)

theorem LegalFields.word_injective : Function.Injective LegalFields.word := by
  rintro ⟨op, rd, rs1, k⟩ ⟨op', rd', rs1', k'⟩ h
  have hi : commandOf op rd rs1 k = commandOf op' rd' rs1' k' :=
    Except.ok.inj ((decode_word _).symm.trans ((congrArg decode h).trans (decode_word _)))
  obtain rfl : op = op' := by
    simpa only [commandOf, opcode_ofFields] using congrArg Instr.opcode hi
  obtain ⟨rfl, rfl, hrs2, hamt⟩ := ofFields_inj.mp hi
  rw [operand_ext hrs2 hamt]

theorem legalWords_eq_range : { w : CmdWord | ∃ i, decode w = .ok i } = Set.range LegalFields.word := by
  ext w
  constructor
  · rintro ⟨i, hd⟩
    obtain ⟨op, -, -, -, -, hshl, hi⟩ := decode_ok hd
    obtain ⟨k, hk⟩ := exists_commandOf (rdField w) (rs1Field w) (rs2Field w) hshl
    refine ⟨⟨op, rdField w, rs1Field w, k⟩, ?_⟩
    rw [LegalFields.word, hk, ← hi, encode_of_decode hd]
  · rintro ⟨x, rfl⟩
    exact ⟨_, x.decode_word⟩

/-- The twelve opcodes. -/
@[reducible] def opcodeFintype : Fintype Opcode :=
  .ofList [.add, .sub, .neg, .inc, .mul, .xor, .and, .not, .mod2, .rotl, .rotr, .shl]
    (by intro op; cases op <;> decide)

theorem card_legalFields : Nat.card LegalFields = 62720 := by
  let := opcodeFintype
  have hcount : ∑ op : Opcode, 16 * (16 * operandCount op) = 62720 := by decide
  simpa [LegalFields, Nat.card_sigma, Nat.card_prod] using hcount

/-- Settles O6: 256 words for each value of the third operand of each opcode. -/
theorem legalWordsNumber62720 : Obligations.LegalWordsNumber62720 := by
  rw [Obligations.LegalWordsNumber62720, legalWords_eq_range,
    Set.ncard_range_of_injective LegalFields.word_injective, card_legalFields]

end Sys2Proof
end

section
/-! PROOF. What a command changes and depends on (10_state.md R15, R17, R22, 20_memory.md R29), and SHL outside
its range (44_rotate.md R80). -/

namespace Sys2Proof.Machine

/-- Settles O28, as the lemma on reading after a write states it. -/
theorem registerReadsWhatWasWritten : Obligations.RegisterReadsWhatWasWritten := readV_writeV

/-- Settles O29: a well-formed command writes its destination, an ill-formed one raises the exception. -/
theorem commandChangesOnlyItsDestination : Obligations.CommandChangesOnlyItsDestination := by
  intro i s t ht
  cases hwf : i.wellFormed with
  | true =>
    rw [exec_wellFormed hwf] at ht
    obtain rfl := Host.Outcome.next.inj ht
    exact ⟨fun r hr => readV_writeV_ne s _ hr, writeV_inbox .., writeV_responses ..,
      fun _ => ⟨writeV_status .., writeV_errcmd ..⟩, nofun⟩
  | false =>
    rw [exec_illFormed hwf] at ht
    obtain rfl := Host.Outcome.next.inj ht
    exact ⟨fun r _ => readV_raiseIllegal .., raiseIllegal_inbox .., raiseIllegal_responses .., nofun,
      fun _ => raiseIllegal_regs ..⟩

/-- The result of a command reads its sources only. -/
theorem resultOf_congr {i : Instr} {read read' : RegIdx → Value} (h : ∀ r ∈ i.sources, read r = read' r) :
    resultOf i read = resultOf i read' := by
  cases i <;> simp only [Instr.sources, List.forall_mem_cons] at h <;> simp only [resultOf, h]

/-- Settles O30: the destination holds the result, which is that of the sources. -/
theorem resultDependsOnSourcesOnly : Obligations.ResultDependsOnSourcesOnly := by
  intro i s s' hwf hsources
  refine ⟨_, _, exec_wellFormed hwf s, exec_wellFormed hwf s', ?_⟩
  rw [readV_writeV_same, readV_writeV_same, resultOf_congr hsources]

theorem raiseIllegal_of_error {s : State} (h : statusErr s.status = 1) (c : IllegalCause) (w : CmdWord) :
    raiseIllegal c w s = s := if_neg (by rw [h]; decide)

/-- The word of SHL, with the fields it does not read zero. -/
theorem encode_shl_toNat (rd rs1 : RegIdx) (n : Amount) :
    (encode (.shl rd rs1 n)).toNat = 0xC <<< 28 ||| rd.val <<< 24 ||| rs1.val <<< 20 ||| n.val := by
  simpa [encode, Opcode.bits] using formatC_toNat_eq_or Opcode.shl.bits rd rs1 0 0 n

/-- Settles O25: an amount above 32 is ill formed, so the command raises the exception with its own word. -/
theorem shlAbove32RaisesIllegalCommand : Obligations.ShlAbove32RaisesIllegalCommand := by
  intro rd rs1 n s hn
  have hwf : (Instr.shl rd rs1 n).wellFormed = false := decide_eq_false (Nat.not_le.mpr hn)
  refine ⟨_, exec_illFormed hwf s, raiseIllegal_regs .., fun herr => ?_, fun herr => ?_⟩
  · rw [raiseIllegal_of_noError herr]
    exact ⟨statusErr_record .., statusCause_record .., encode_shl_toNat rd rs1 n⟩
  · exact raiseIllegal_of_error herr _ _

end Sys2Proof.Machine
end

section
/-! PROOF. Serving a request by its kind (20_memory.md R27 to R29), and what an error leaves of it
(60_exceptions.md R85, R89). -/

namespace Sys2Proof.Machine

theorem kind_cases : ∀ b : BitVec 2, b = 0b00 ∨ b = 0b01 ∨ b = 0b10 ∨ b = 0b11 := by decide

theorem serve_of_cmd {q : Request} (hk : q.kind = 0b00) (s : State) : serve q s = serveCmd q.cmd s := by
  simp only [serve, (ofBits_eq_cmd_iff _).mpr hk]

/-- A legal command is performed and answered `(0, 0)`. -/
theorem serve_of_legal {q : Request} {i : Instr} (hk : q.kind = 0b00) (hd : decode q.cmd = .ok i) (s : State) :
    serve q s = .next (s.writeV i.dest (resultOf i s.readV), Response.zero) := by
  rw [serve_of_cmd hk, serveCmd, hd]
  simp only [exec_wellFormed (wellFormed_of_decode hd), answer]

/-- Settles O40: a decoded command is well formed, so it completes. -/
theorem stepRunsTheDecodedCommand : Obligations.StepRunsTheDecodedCommand := by
  intro s q rest i hin hk hd
  exact ⟨_, exec_wellFormed (wellFormed_of_decode hd) _, step_of_serve hin (serve_of_legal hk hd _)⟩

/-- Settles O46: a step is idle, or serves a request, or resets. -/
theorem everyStepAnswersANextState : Obligations.EveryStepAnswersANextState := by
  intro s
  rcases step_cases s with ⟨_, h⟩ | ⟨_, _, _, _, _, _, h⟩ | ⟨_, _, _, h⟩ <;> exact ⟨_, h⟩

/-- Settles O45: each kind is served from the fields it uses. -/
theorem unusedRequestFieldsAreIgnored : Obligations.UnusedRequestFieldsAreIgnored := by
  intro q q' s hkind hcmd hwr hrd
  have hreg (h : q.idx = q'.idx) : q.reg = q'.reg := congrArg BitVec.toFin h
  rcases kind_cases q.kind with hk | hk | hk | hk <;> have hk' := hkind.symm.trans hk
  · rw [serve_of_cmd hk, serve_of_cmd hk', hcmd hk]
  · obtain ⟨hidx, hhi, hlo⟩ := hwr hk
    rw [serve_of_wr hk, serve_of_wr hk', hreg hidx, hhi, hlo]
  · rw [serve_of_rd hk, serve_of_rd hk', hreg (hrd hk)]
  · rw [serve_of_rdstat hk, serve_of_rdstat hk']

/-! ### Illegal commands -/

/-- Settles O31: the step raises the exception and answers `(0, 0)`. -/
theorem illegalCommandRecordsTheFirstError : Obligations.IllegalCommandRecordsTheFirstError := by
  intro s q rest c hin hk hd
  refine ⟨_, step_of_serve hin (serve_of_illegal hk hd _), raiseIllegal_regs .., raiseIllegal_inbox ..,
    congrArg (· ++ _) (raiseIllegal_responses ..), fun herr => ?_, fun herr => ?_⟩
  · rw [raiseIllegal_of_noError (s := { s with inbox := rest }) herr]
    exact ⟨statusErr_record .., statusCause_record .., statusReserved_record .., rfl, statusErr_record ..⟩
  · rw [raiseIllegal_of_error (s := { s with inbox := rest }) herr]
    exact ⟨rfl, rfl⟩

/-- A request that is neither an illegal command nor an RDSTAT does not see the error registers. -/
theorem serve_errorRegs_unseen {q : Request} (hill : q.illegal = none) (hk : q.kind ≠ 0b11) (s : State)
    (status errcmd : BitVec 32) : ∃ t r, serve q s = .next (t, r) ∧
      serve q { s with status := status, errcmd := errcmd } =
        .next ({ t with status := status, errcmd := errcmd }, r) := by
  rcases kind_cases q.kind with hcmd | hwr | hrd | hrdstat
  · cases hd : decode q.cmd with
    | ok i => exact ⟨_, _, serve_of_legal hcmd hd _, serve_of_legal hcmd hd _⟩
    | error c => exact nomatch (illegal_of_error hcmd hd).symm.trans hill
  · exact ⟨_, _, serve_of_wr hwr _, serve_of_wr hwr _⟩
  · exact ⟨_, _, serve_of_rd hrd _, serve_of_rd hrd _⟩
  · exact absurd hrdstat hk

/-- Settles O33: the first part is the lemma above, and with `ERR` = 1 the exception changes nothing. -/
theorem errorDoesNotAffectLaterRequests : Obligations.ErrorDoesNotAffectLaterRequests := by
  intro q s status errcmd
  refine ⟨fun hill hk => serve_errorRegs_unseen hill hk s status errcmd, fun hk => serve_of_rdstat hk s,
    fun hill herr => ?_⟩
  obtain ⟨⟨c, w⟩, hcw⟩ := Option.ne_none_iff_exists'.mp hill
  obtain ⟨hk, hd, -⟩ := of_illegal_eq_some hcw
  rw [serve_of_illegal hk hd, raiseIllegal_of_error herr]
  rfl

end Sys2Proof.Machine
end

section
/-! PROOF. The number views of a value (00_scope.md R12). -/

namespace Sys2Proof

theorem val_lt (v : Value) : v.val < 2 ^ 64 := word_toNat v ▸ v.word.isLt

theorem val_injective : Function.Injective Value.val := fun a b h =>
  word_injective (BitVec.eq_of_toNat_eq (by rw [word_toNat, word_toNat, h]))

/-- `U` of any integer has its remainder for a value. -/
theorem val_ofInt (n : Int) : ((Value.ofInt n).val : Int) = n % 2 ^ 64 := by
  simp only [Value.ofInt, Value.val, BitVec.toNat_ofNat, Nat.shiftRight_eq_div_pow]
  omega

@[simp] theorem val_ofNat (n : Nat) : (Value.ofNat n).val = n % 2 ^ 64 := by
  have h := val_ofInt n
  rw [ofInt_natCast] at h
  omega

theorem ofNat_val (v : Value) : Value.ofNat v.val = v :=
  val_injective (by rw [val_ofNat, Nat.mod_eq_of_lt (val_lt v)])

theorem getLsbD_31_eq (x : Half) : (x.getLsbD 31).toNat = x.toNat / 2 ^ 31 := by
  have := x.isLt
  rw [BitVec.getLsbD, Nat.toNat_testBit]
  omega

/-- The sign bit is worth 2^63 and is counted as -2^63. -/
theorem sval_bounds (v : Value) : -(2 ^ 63 : Int) ≤ v.sval ∧ v.sval < 2 ^ 63 := by
  have := v.hi.isLt
  have := v.lo.isLt
  rw [Value.sval, getLsbD_31_eq, Value.val]
  omega

theorem sval_emod (v : Value) : v.sval % 2 ^ 64 = v.val := by
  have := val_lt v
  rw [Value.sval]
  omega

theorem ofInt_sval (v : Value) : Value.ofInt v.sval = v :=
  val_injective (Int.ofNat_inj.mp ((val_ofInt _).trans (sval_emod v)))

/-- Settles O51: `U` of an integer is fixed by its remainder, which `val` and `sval` share. -/
theorem numberViewsOfAValueAgree : Obligations.NumberViewsOfAValueAgree :=
  ⟨fun v => ⟨val_lt v, ofNat_val v, (sval_bounds v).1, (sval_bounds v).2, sval_emod v, ofInt_sval v⟩,
    val_ofInt, val_ofNat⟩

/-- The high half of a value is its quotient by 2^32, the low one its remainder. -/
theorem hi_toNat_eq_div (v : Value) : v.hi.toNat = v.val / 2 ^ 32 := by
  have := v.lo.isLt
  rw [Value.val]
  omega

theorem lo_toNat_eq_mod (v : Value) : v.lo.toNat = v.val % 2 ^ 32 := by
  have := v.lo.isLt
  rw [Value.val]
  omega

end Sys2Proof
end

section
/-! PROOF. The adder's commands (41_adder.md R60 to R64). -/

namespace Sys2Proof.Machine

/-- A well-formed command whose result has the value `n` writes `U(n)`. -/
theorem exec_writes_val {i : Instr} {s : State} {n : Nat} (hwf : i.wellFormed = true)
    (h : (resultOf i s.readV).val = n) : exec i s = .next (s.writeV i.dest (Value.ofNat n)) := by
  rw [exec_wellFormed hwf, ← h, ofNat_val]

theorem neg64_val (a : Value) : (neg64 a).val = (2 ^ 64 - a.val) % 2 ^ 64 := by
  rw [← word_toNat, word_neg64, BitVec.toNat_neg, word_toNat]

theorem sub64_val (a b : Value) : (sub64 a b).val = (a.val + (2 ^ 64 - b.val)) % 2 ^ 64 := by
  rw [sub64, add64_val, neg64_val, Nat.add_mod_mod]

/-- Settles O9: the limb sums are the sum modulo 2^64. -/
theorem addWritesSumModulo2Pow64 : Obligations.AddWritesSumModulo2Pow64 := fun _ _ _ _ =>
  exec_writes_val rfl (add64_val ..)

/-- Settles O10: the sum with the negation is the difference. -/
theorem subWritesDifferenceModulo2Pow64 : Obligations.SubWritesDifferenceModulo2Pow64 := fun _ _ _ _ =>
  exec_writes_val rfl (sub64_val ..)

/-- Settles O11: one plus the complement is the negation. -/
theorem negWritesTwosComplement : Obligations.NegWritesTwosComplement := fun _ _ _ =>
  exec_writes_val rfl (neg64_val _)

/-- Settles O12: INC adds `ONE`. -/
theorem incWritesSuccessorModulo2Pow64 : Obligations.IncWritesSuccessorModulo2Pow64 := fun _ _ _ =>
  exec_writes_val rfl (add64_val _ Value.one)

end Sys2Proof.Machine
end

section
/-! PROOF. The multiplier (42_multiplier.md R67 to R69): the column sums are the product modulo 2^64. -/

namespace Sys2Proof.Machine

/-- The product with its columns below 2^64 apart from the rest. -/
theorem val_mul_val_eq_columns (a b : Value) : ∃ rest, a.val * b.val =
    a.limb00 * b.limb00 +
    (a.limb00 * b.limb16 + a.limb16 * b.limb00) * 2 ^ 16 +
    (a.limb00 * b.limb32 + a.limb16 * b.limb16 + a.limb32 * b.limb00) * 2 ^ 32 +
    (a.limb00 * b.limb48 + a.limb16 * b.limb32 + a.limb32 * b.limb16 + a.limb48 * b.limb00) * 2 ^ 48 +
    rest * 2 ^ 64 := by
  refine ⟨a.limb16 * b.limb48 + a.limb32 * b.limb32 + a.limb48 * b.limb16 +
    (a.limb32 * b.limb48 + a.limb48 * b.limb32) * 2 ^ 16 + a.limb48 * b.limb48 * 2 ^ 32, ?_⟩
  rw [val_eq_limbs a, val_eq_limbs b]
  ring

/-- Four columns, each taking the carry of the one below it, are their weighted sum modulo 2^64. -/
theorem columns_val (s0 s1 s2 s3 : Nat) :
    Value.val ⟨halfOfLimbs (low16 (s3 + carry (s2 + carry (s1 + carry s0)))) (s2 + carry (s1 + carry s0)),
      halfOfLimbs (low16 (s1 + carry s0)) s0⟩ =
    (s0 + s1 * 2 ^ 16 + s2 * 2 ^ 32 + s3 * 2 ^ 48) % 2 ^ 64 := by
  simp only [Value.val, halfOfLimbs_toNat, low16, carry, Nat.shiftRight_eq_div_pow]
  omega

theorem mulColumns_val (a b : Value) : (mulColumns a b).val = (a.val * b.val) % 2 ^ 64 := by
  obtain ⟨rest, hprod⟩ := val_mul_val_eq_columns a b
  rw [hprod, Nat.add_mul_mod_self_right]
  exact columns_val ..

/-- Settles O17: where the exit is taken the product is zero. -/
theorem mulEarlyExitAgreesWithColumns : Obligations.MulEarlyExitAgreesWithColumns := by
  intro a b
  unfold mul64
  split
  next h =>
    have hprod : a.val * b.val = 0 := mul_eq_zero.mpr h
    refine val_injective ?_
    rw [mulColumns_val, hprod]
    rfl
  next => rfl

theorem mul64_val (a b : Value) : (mul64 a b).val = (a.val * b.val) % 2 ^ 64 := by
  rw [mulEarlyExitAgreesWithColumns, mulColumns_val]

/-- Settles O15: the early exit and the columns both give the product modulo 2^64. -/
theorem mulWritesProductModulo2Pow64 : Obligations.MulWritesProductModulo2Pow64 := fun _ _ _ _ =>
  exec_writes_val rfl (mul64_val ..)

theorem val_of_hi_zero {a : Value} (h : a.hi = 0) : a.val = a.lo.toNat := by
  simp [Value.val, h]

/-- Settles O16: two factors below 2^32 have a product below 2^64; and a value and its signed reading are
congruent modulo 2^64, so their products are. -/
theorem mulOfLowHalvesIsExact : Obligations.MulOfLowHalvesIsExact := by
  refine ⟨fun a b ha hb => ?_, fun a b => ⟨mul64_val a b, ?_⟩⟩
  · rw [val_of_hi_zero ha, val_of_hi_zero hb]
    have hlt : a.lo.toNat * b.lo.toNat < 2 ^ 64 :=
      lt_of_lt_of_eq (Nat.mul_lt_mul'' a.lo.isLt b.lo.isLt) (by norm_num)
    have hval : (mul64 a b).val = a.lo.toNat * b.lo.toNat := by
      rw [mul64_val, val_of_hi_zero ha, val_of_hi_zero hb, Nat.mod_eq_of_lt hlt]
    exact ⟨hlt, hval, by rw [hi_toNat_eq_div, hval, Nat.shiftRight_eq_div_pow],
      by rw [lo_toNat_eq_mod, hval]⟩
  · rw [mul64_val, Int.mul_emod, sval_emod, sval_emod]
    omega

end Sys2Proof.Machine
end

section
/-! PROOF. The bitwise unit's commands (43_bitwise.md R71 to R75), on the 64-bit word of a value. -/

namespace Sys2Proof.Machine

@[simp] theorem word_xor64 (a b : Value) : (xor64 a b).word = a.word ^^^ b.word := BitVec.xor_append.symm

@[simp] theorem word_and64 (a b : Value) : (and64 a b).word = a.word &&& b.word := BitVec.and_append.symm

theorem xor64_val (a b : Value) : (xor64 a b).val = a.val ^^^ b.val := by
  simp only [← word_toNat, word_xor64, BitVec.toNat_xor]

theorem and64_val (a b : Value) : (and64 a b).val = a.val &&& b.val := by
  simp only [← word_toNat, word_and64, BitVec.toNat_and]

theorem not64_val (a : Value) : (not64 a).val = 2 ^ 64 - 1 - a.val := by
  simp only [← word_toNat, word_not64, BitVec.toNat_not]

/-- Settles O18: the halves of the two words are combined apart. -/
theorem xorWritesExclusiveOr : Obligations.XorWritesExclusiveOr := fun _ _ _ _ =>
  exec_writes_val rfl (xor64_val ..)

/-- Settles O19: as for XOR, half by half. -/
theorem andWritesConjunction : Obligations.AndWritesConjunction := fun _ _ _ _ =>
  exec_writes_val rfl (and64_val ..)

/-- Settles O20: the complement of the word. -/
theorem notWritesComplement : Obligations.NotWritesComplement := fun _ _ _ =>
  exec_writes_val rfl (not64_val _)

/-- The lowest bit alone is `ONE` or `ZERO` by parity. -/
theorem and64_one (a : Value) : and64 a Value.one = if a.val % 2 = 1 then Value.one else Value.zero := by
  have hval : (and64 a Value.one).val = a.val % 2 := (and64_val ..).trans (Nat.and_one_is_mod _)
  split <;> apply val_injective <;> rw [hval]
  next h => exact h
  next h => exact Nat.mod_two_ne_one.mp h

/-- Settles O21: AND with `ONE` keeps bit 0. -/
theorem mod2WritesTheLowestBit : Obligations.Mod2WritesTheLowestBit := by
  intro rd rs1 s
  rw [exec_wellFormed rfl, resultOf, and64_one, Instr.dest]

end Sys2Proof.Machine
end

section
/-! PROOF. The rotator's commands (44_rotate.md R77 to R82), on the 64-bit word of a value. -/

namespace Sys2Proof.Machine

theorem word_getLsbD (v : Value) (i : Nat) :
    v.word.getLsbD i = if i < 32 then v.lo.getLsbD i else v.hi.getLsbD (i - 32) := by
  rw [Value.word, BitVec.getLsbD_append]

/-- Bit `i` of the rotation is bit `i - n` of the value from `n` upwards, and one of its top `n` bits below;
either may lie in either half. -/
theorem word_rotlBelow32 {n : Nat} (h : n ≤ 32) (a : Value) :
    (rotlBelow32 a n).word = a.word <<< n ||| a.word >>> (64 - n) := by
  apply BitVec.eq_of_getLsbD_eq
  intro i hi
  simp only [word_getLsbD, rotlBelow32, BitVec.getLsbD_or, BitVec.getLsbD_shiftLeft, BitVec.getLsbD_ushiftRight]
  grind

/-- Bit `i` of the rotation is bit `i + n` of the value below `64 - n`, and one of its low `n` bits above. -/
theorem word_rotrBelow32 {n : Nat} (h : n ≤ 32) (a : Value) :
    (rotrBelow32 a n).word = a.word >>> n ||| a.word <<< (64 - n) := by
  apply BitVec.eq_of_getLsbD_eq
  intro i hi
  simp only [word_getLsbD, rotrBelow32, BitVec.getLsbD_or, BitVec.getLsbD_shiftLeft, BitVec.getLsbD_ushiftRight]
  grind

/-- The branches for 0 and for 32 are what the shifts of the halves give there. -/
theorem rotl64_le_32 {n : Nat} (h : n ≤ 32) (a : Value) : rotl64 a n = rotlBelow32 a n := by
  rcases Nat.eq_zero_or_pos n with rfl | h0
  · simp [rotl64_zero, rotlBelow32, BitVec.ushiftRight_eq_zero]
  · rcases h.lt_or_eq with hlt | rfl
    · exact rotl64_below h0 hlt a
    · simp [rotl64_32, rotlBelow32]

theorem word_rotl64 {n : Nat} (h : n < 64) (a : Value) :
    (rotl64 a n).word = a.word <<< n ||| a.word >>> (64 - n) := by
  rcases Nat.lt_or_ge 32 n with hgt | hle
  · rw [rotl64_above hgt, word_rotrBelow32 (by omega), Nat.sub_sub_self h.le, BitVec.or_comm]
  · rw [rotl64_le_32 hle, word_rotlBelow32 hle]

/-- On either side of 32 the one rotation is defined by the other; by 0 and by 32 they agree. -/
theorem rotr64_eq_rotl64 {n : Nat} (h : n < 64) (a : Value) : rotr64 a n = rotl64 a ((64 - n) % 64) := by
  rcases Nat.eq_zero_or_pos n with rfl | h0
  · exact (rotr64_zero a).trans (rotl64_zero a).symm
  · rw [Nat.mod_eq_of_lt (Nat.sub_lt (by norm_num) h0)]
    rcases Nat.lt_trichotomy n 32 with hlt | rfl | hgt
    · rw [rotr64_below h0 hlt, rotl64_above (by omega), Nat.sub_sub_self h.le]
    · exact (rotr64_32 a).trans (rotl64_32 a).symm
    · rw [rotr64_above hgt, rotl64_le_32 (by omega)]

/-- Settles O27, for the amounts of the rotator. -/
theorem rotrIsTheComplementRotl : Obligations.RotrIsTheComplementRotl := fun a n => rotr64_eq_rotl64 n.isLt a

theorem word_rotr64 {n : Nat} (h : n < 64) (a : Value) :
    (rotr64 a n).word = a.word >>> n ||| a.word <<< (64 - n) := by
  rw [rotr64_eq_rotl64 h, word_rotl64 (Nat.mod_lt _ (by norm_num))]
  rcases Nat.eq_zero_or_pos n with rfl | h0
  · simp [BitVec.ushiftRight_eq_zero]
  · rw [Nat.mod_eq_of_lt (Nat.sub_lt (by norm_num) h0), Nat.sub_sub_self h.le, BitVec.or_comm]

/-! ### The formulas as numbers -/

theorem word_shiftLeft_toNat (a : Value) (n : Nat) : (a.word <<< n).toNat = (a.val <<< n) % 2 ^ 64 := by
  rw [BitVec.toNat_shiftLeft, word_toNat]

/-- What a right shift leaves needs no remainder. -/
theorem word_ushiftRight_toNat (a : Value) (n : Nat) : (a.word >>> n).toNat = (a.val >>> n) % 2 ^ 64 := by
  rw [BitVec.toNat_ushiftRight, word_toNat,
    Nat.mod_eq_of_lt (lt_of_le_of_lt (Nat.shiftRight_le ..) (val_lt a))]

theorem rotl64_val {n : Nat} (h : n < 64) (a : Value) :
    (rotl64 a n).val = (a.val <<< n ||| a.val >>> (64 - n)) % 2 ^ 64 := by
  rw [← word_toNat, word_rotl64 h, BitVec.toNat_or, word_shiftLeft_toNat, word_ushiftRight_toNat,
    Nat.or_mod_two_pow]

theorem rotr64_val {n : Nat} (h : n < 64) (a : Value) :
    (rotr64 a n).val = (a.val >>> n ||| a.val <<< (64 - n)) % 2 ^ 64 := by
  rw [← word_toNat, word_rotr64 h, BitVec.toNat_or, word_shiftLeft_toNat, word_ushiftRight_toNat,
    Nat.or_mod_two_pow]

/-- Settles O22: the formula on words, as a number. -/
theorem rotlWritesLeftRotation : Obligations.RotlWritesLeftRotation := fun _ _ n _ =>
  exec_writes_val rfl (rotl64_val n.isLt _)

/-- Settles O23: the formula on words, as a number. -/
theorem rotrWritesRightRotation : Obligations.RotrWritesRightRotation := fun _ _ n _ =>
  exec_writes_val rfl (rotr64_val n.isLt _)

/-! ### SHL clears what wrapped (R80) -/

/-- The mask keeps the bits from `n` upwards. -/
theorem word_shlMask_getLsbD {n i : Nat} (h : n ≤ 32) (hi : i < 64) :
    (shlMask n).word.getLsbD i = decide (n ≤ i) := by
  simp only [word_getLsbD, shlMask, BitVec.getLsbD_not, BitVec.getLsbD_allOnes, BitVec.getLsbD_ofNat,
    Nat.testBit_two_pow_sub_one]
  grind

theorem word_shl64 {n : Nat} (h : n ≤ 32) (a : Value) : (shl64 a n).word = a.word <<< n := by
  rw [shl64, word_and64, word_rotl64 (by omega)]
  apply BitVec.eq_of_getLsbD_eq
  intro i hi
  simp only [BitVec.getLsbD_and, BitVec.getLsbD_or, BitVec.getLsbD_shiftLeft, BitVec.getLsbD_ushiftRight,
    word_shlMask_getLsbD h hi]
  have htop : n ≤ i → a.word.getLsbD (64 - n + i) = false := fun hn => BitVec.getLsbD_of_ge _ _ (by omega)
  by_cases hn : n ≤ i
  · simp [hn, htop hn]
  · simp [hn, Nat.lt_of_not_le hn]

/-- Settles O24: the shifted word, as a number. -/
theorem shlUpTo32WritesLogicalShift : Obligations.ShlUpTo32WritesLogicalShift := by
  intro rd rs1 n s hn
  refine exec_writes_val (i := .shl rd rs1 n) (decide_eq_true hn) ?_
  rw [resultOf, ← word_toNat, word_shl64 hn, word_shiftLeft_toNat]

end Sys2Proof.Machine
end

section
/-! PROOF. Runs of host events (20_memory.md R28, R40, 95_test_vectors.md Q1). -/

namespace Sys2Proof.Machine

theorem handle_of_serve {q : Request} {s t : State} {r : Response} (h : serve q s = .next (t, r)) :
    handle (.request q) s = .next (t.respond r) := by
  simp only [handle, h, giveResponse]

/-- Over any number of steps, the first event is handled and the steps left meet the rest. -/
theorem run_cons {e : HostEvent} {s t : State} (h : handle e s = .next t) (n : Nat) (es : List HostEvent) :
    Sys2Proof.core.run (n + 1) { s with inbox := e :: es } = Sys2Proof.core.run n { t with inbox := es } := by
  obtain ⟨t', h', -, hes⟩ := handle_inbox e s es
  obtain rfl := Host.Outcome.next.inj (h.symm.trans h')
  exact run_succ Sys2Proof.core n { s with inbox := e :: es } { t with inbox := es } hes

theorem serveAll_of_handle {e : HostEvent} {s t : State} (h : handle e s = .next t) (es : List HostEvent) :
    s.serveAll (e :: es) = t.serveAll es := run_cons h es.length es

/-- Settles O44: WR is served, then RD on what it left. -/
theorem wrThenRdAnswersTheValue : Obligations.WrThenRdAnswersTheValue := by
  intro s r v
  have hwr : handle (.request (Request.ofWr r v)) s = .next ((s.writeV r v).respond Response.zero) :=
    handle_of_serve (serve_of_wr rfl s)
  refine ⟨_, (serveAll_of_handle hwr _).trans (serveAll_of_handle (handle_of_serve (serve_of_rd rfl _)) []), ?_⟩
  have hreg : (Request.ofRd r).reg = r := rfl
  simp [hreg, Response.zero]

/-- A request adds one response, a reset none. -/
theorem handle_responses {e : HostEvent} {s t : State} (h : handle e s = .next t) :
    ∃ rs, t.responses = s.responses ++ rs ∧ rs.length = ([e].filter HostEvent.isRequest).length := by
  rcases handle_cases e s with ⟨q, t', r, rfl, hserve, hh⟩ | ⟨fl, rfl, hh⟩ <;>
    obtain rfl := Host.Outcome.next.inj (hh.symm.trans h)
  · exact ⟨[r], congrArg (· ++ [r]) (serve_port hserve).2, rfl⟩
  · exact ⟨[], (List.append_nil _).symm, rfl⟩

/-- Settles O47, event by event. -/
theorem eachRequestGivesOneResponse : Obligations.EachRequestGivesOneResponse := by
  intro s es
  induction es generalizing s with
  | nil => exact ⟨_, [], serveAll_nil s, rfl, (List.append_nil _).symm, rfl⟩
  | cons e es ih =>
    obtain ⟨t, ht, hrun⟩ := serveAll_cons s e es
    obtain ⟨rs, hrs, hlen⟩ := handle_responses ht
    obtain ⟨u, rs', hu, hin, hrs', hlen'⟩ := ih t
    refine ⟨u, rs ++ rs', hrun.trans hu, hin, by rw [hrs', hrs, List.append_assoc], ?_⟩
    rw [List.length_append, hlen, hlen', ← List.length_append, ← List.filter_append, List.singleton_append]

/-- Settles O48, event by event of `before`: no event sees those behind it. -/
theorem requestsObserveExactlyTheEarlierOnes : Obligations.RequestsObserveExactlyTheEarlierOnes := by
  intro s before after
  induction before generalizing s with
  | nil => exact ⟨_, serveAll_nil s, rfl, rfl⟩
  | cons e before ih =>
    obtain ⟨t, ht, hrun⟩ := serveAll_cons s e before
    obtain ⟨u, hu, hbefore, hall⟩ := ih t
    exact ⟨u, hrun.trans hu, (run_cons ht before.length (before ++ after)).trans hbefore,
      (serveAll_of_handle ht (before ++ after)).trans hall⟩

end Sys2Proof.Machine
end

section
/-! PROOF. Isolation of exclusive registers under every arbitration (60_exceptions.md R94): the events of the
other masters leave them, and the master's own do the same on states that agree on them. -/

namespace Sys2Proof.Machine

/-- Two states hold the same in the registers of the set `own`. -/
def AgreeOn (own : RegIdx → Bool) (s u : State) : Prop := ∀ r, own r = true → s.readV r = u.readV r

theorem AgreeOn.trans {own : RegIdx → Bool} {s t u : State} (h : AgreeOn own s t) (h' : AgreeOn own t u) :
    AgreeOn own s u := fun r hr => (h r hr).trans (h' r hr)

/-! ### What a request reads and writes, on the registers -/

/-- A request leaves every register but the one it writes. -/
theorem serve_readV_of_not_writes {q : Request} {s t : State} {a : Response} (h : serve q s = .next (t, a))
    {r : RegIdx} (hr : q.writes ≠ some r) : t.readV r = s.readV r := by
  obtain ⟨t', a', h', hc⟩ := serve_cases q s
  obtain ⟨rfl, rfl⟩ := Prod.mk.inj (Host.Outcome.next.inj (h.symm.trans h'))
  rcases hc with ⟨i, hk, hd, rfl, -⟩ | ⟨c, -, -, rfl, -⟩ | ⟨hk, rfl, -⟩ | ⟨-, rfl, -⟩ | ⟨-, rfl, -⟩
  · have hw : q.writes = some i.dest := by simp only [Request.writes, hk, hd]
    exact readV_writeV_ne s _ fun heq => hr (heq ▸ hw)
  · exact readV_raiseIllegal ..
  · have hw : q.writes = some q.reg := by simp only [Request.writes, hk]
    exact readV_writeV_ne s _ fun heq => hr (heq ▸ hw)
  · rfl
  · rfl

/-- A request that writes a register is a legal command with that destination, or a WR of it. -/
theorem of_writes_eq_some {q : Request} {r : RegIdx} (h : q.writes = some r) :
    (∃ i, q.kind = 0b00 ∧ decode q.cmd = .ok i ∧ i.dest = r ∧ q.reads = i.sources) ∨
    (q.kind = 0b01 ∧ q.reg = r) := by
  rcases kind_cases q.kind with hk | hk | hk | hk
  · have hcmd : ReqKind.ofBits q.kind = .cmd := (ofBits_eq_cmd_iff _).mpr hk
    cases hd : decode q.cmd with
    | ok i =>
      simp only [Request.writes, hcmd, hd, Option.some.injEq] at h
      exact .inl ⟨i, hk, rfl, h, by simp only [Request.reads, hcmd, hd]⟩
    | error c => simp only [Request.writes, hcmd, hd, reduceCtorEq] at h
  · have hwr : ReqKind.ofBits q.kind = .wr := by rw [hk]; rfl
    simp only [Request.writes, hwr, Option.some.injEq] at h
    exact .inr ⟨hk, h⟩
  · have hrd : ReqKind.ofBits q.kind = .rd := by rw [hk]; rfl
    simp only [Request.writes, hrd, reduceCtorEq] at h
  · have hrdstat : ReqKind.ofBits q.kind = .rdstat := by rw [hk]; rfl
    simp only [Request.writes, hrdstat, reduceCtorEq] at h

/-- What a request writes depends on the registers it reads only. -/
theorem serve_written_congr {q : Request} {s u t v : State} {a b : Response} {r : RegIdx}
    (hs : serve q s = .next (t, a)) (hu : serve q u = .next (v, b)) (hw : q.writes = some r)
    (hreads : ∀ i ∈ q.reads, s.readV i = u.readV i) : t.readV r = v.readV r := by
  rcases of_writes_eq_some hw with ⟨i, hk, hd, rfl, hsources⟩ | ⟨hk, rfl⟩
  · rw [serve_of_legal hk hd] at hs hu
    cases hs
    cases hu
    rw [readV_writeV_same, readV_writeV_same, resultOf_congr (hsources ▸ hreads)]
  · rw [serve_of_wr hk] at hs hu
    cases hs
    cases hu
    rw [readV_writeV_same, readV_writeV_same]

/-! ### The events of the masters -/

/-- What handling a request leaves is what serving it left, with the response given. -/
theorem serve_of_handle {q : Request} {s t : State} (h : handle (.request q) s = .next t) :
    ∃ t' a, serve q s = .next (t', a) ∧ t = t'.respond a := by
  obtain ⟨t', a, hserve, -⟩ := serve_cases q s
  exact ⟨t', a, hserve, Host.Outcome.next.inj (h.symm.trans (handle_of_serve hserve))⟩

section
variable {own : RegIdx → Bool}

/-- An event of another master leaves the registers of the set. -/
theorem handle_writesOutside {e : HostEvent} {s t : State} (he : e.writesOutside own = true)
    (h : handle e s = .next t) : AgreeOn own t s := by
  cases e with
  | reset => cases he
  | request q =>
    obtain ⟨t', a, hserve, rfl⟩ := serve_of_handle h
    intro r hr
    refine (readV_respond ..).trans (serve_readV_of_not_writes hserve fun hw => ?_)
    simp [HostEvent.writesOutside, hw, hr] at he

/-- An event of the master does the same on states that agree on its registers. -/
theorem handle_staysWithin {e : HostEvent} {s u t v : State} (he : e.staysWithin own = true)
    (hs : handle e s = .next t) (hu : handle e u = .next v) (hagree : AgreeOn own s u) : AgreeOn own t v := by
  cases e with
  | reset => cases he
  | request q =>
    obtain ⟨t', a, hserve, rfl⟩ := serve_of_handle hs
    obtain ⟨v', b, hserve', rfl⟩ := serve_of_handle hu
    have hreads : ∀ i ∈ q.reads, own i = true := by
      simp only [HostEvent.staysWithin, Bool.and_eq_true, List.all_eq_true] at he
      exact he.1
    intro r hr
    rw [readV_respond, readV_respond]
    by_cases hw : q.writes = some r
    · exact serve_written_congr hserve hserve' hw fun i hi => hagree i (hreads i hi)
    · rw [serve_readV_of_not_writes hserve hw, serve_readV_of_not_writes hserve' hw, hagree r hr]

/-- Along an interleaving, the block and one that serves the master alone agree on the master's registers. -/
theorem agreeOn_of_arbOrder {ms : List (List HostEvent)} {es : List HostEvent} (h : ArbOrder ms es) (k : Nat)
    {mine : List HostEvent} {s u : State} (hmine : ms[k]? = some mine)
    (hwithin : ∀ e ∈ mine, e.staysWithin own = true)
    (hothers : ∀ j m, j ≠ k → ms[j]? = some m → ∀ e ∈ m, e.writesOutside own = true)
    (hagree : AgreeOn own s u) :
    ∃ t v, s.serveAll es = .next t ∧ u.serveAll mine = .next v ∧ AgreeOn own t v := by
  induction h generalizing mine s u with
  | done ms hdone =>
    obtain rfl : mine = [] := hdone mine (List.mem_of_getElem? hmine)
    exact ⟨_, _, serveAll_nil s, serveAll_nil u, hagree⟩
  | grant ms j e rest es hj later ih =>
    obtain ⟨s', hs, hrun⟩ := serveAll_cons s e es
    rw [hrun]
    have hjlt : j < ms.length := (List.getElem?_eq_some_iff.mp hj).1
    have hothers' (i m) (hi : i ≠ k) (hm : (ms.set j rest)[i]? = some m) :
        ∀ e' ∈ m, e'.writesOutside own = true := by
      by_cases hij : j = i
      · subst hij
        obtain rfl : rest = m := Option.some.inj ((List.getElem?_set_self hjlt).symm.trans hm)
        exact fun e' he' => hothers j _ hi hj e' (List.mem_cons_of_mem e he')
      · exact hothers i m hi ((List.getElem?_set_ne hij).symm.trans hm)
    by_cases hjk : j = k
    · subst hjk
      obtain rfl : mine = e :: rest := Option.some.inj (hmine.symm.trans hj)
      obtain ⟨hhead, hrest⟩ := List.forall_mem_cons.mp hwithin
      obtain ⟨u', hu, hrun'⟩ := serveAll_cons u e rest
      rw [hrun']
      exact ih (List.getElem?_set_self hjlt) hrest hothers' (handle_staysWithin hhead hs hu hagree)
    · have hout : e.writesOutside own = true := hothers j _ hjk hj e List.mem_cons_self
      exact ih ((List.getElem?_set_ne hjk).trans hmine) hwithin hothers'
        ((handle_writesOutside hout hs).trans hagree)

end

/-- Settles O53: from one state, the two runs agree on the master's registers from the start. -/
theorem exclusiveRegistersAreIsolatedUnderAnyArbitration :
    Obligations.ExclusiveRegistersAreIsolatedUnderAnyArbitration :=
  fun _ _ _ _ k _ h hmine hwithin hothers =>
    agreeOn_of_arbOrder h k hmine hwithin hothers fun _ _ => rfl

end Sys2Proof.Machine
end

section
/-! PROOF. One clock edge (20_memory.md R26, R34, 70_reset_and_hazards.md R97, 93_implementation_defined.md U7):
all it can do, said once, then the statements about a single edge. -/

namespace Sys2Proof.Machine

/-- The port right after it accepted `q`, before what is due of it. -/
def Port.accept (p : Port) (q : Request) : Port :=
  { p with phase := .busy (.accepted p.accepted q p.block) none (Config.rspLatency p.accepted q p.block),
           waiting := none, accepted := p.accepted + 1 }

/-! ### The edge, case by case -/

theorem clock_of_reset {inp : PortIn} (hrst : inp.rst = true) (p : Port) : p.clock inp =
    .next { p with block := p.blockAtReset.applyReset, phase := .ready, waiting := inp.presented } := by
  simp only [Port.clock, hrst, if_true]

section
variable {p : Port} {inp : PortIn} (hrst : inp.rst = false)
include hrst

theorem clock_of_broke (hbroke : p.hostBroke inp = true) : p.clock inp = .fault .hostChangedRequest := by
  simp [Port.clock, hrst, hbroke]

variable (hkept : p.hostBroke inp = false)
include hkept

theorem clock_of_idle (hphase : p.phase = .ready) (hvalid : inp.reqValid = false) :
    p.clock inp = .next { p with waiting := none } := by
  simp [Port.clock, hrst, hkept, hphase, PortIn.presented, hvalid]

theorem clock_of_accept (hphase : p.phase = .ready) (hvalid : inp.reqValid = true) :
    p.clock inp = (p.accept inp.req).performIfDue := by
  simp [Port.clock, hrst, hkept, hphase, PortIn.presented, hvalid, Port.accept]

theorem clock_of_last {f : Flight} {rsp : Option Response} {left : Nat} {t : State} {r : Response}
    (hphase : p.phase = .busy f rsp left) (hleft : left ≤ 1) (hdone : p.completed f.req rsp = .next (t, r)) :
    p.clock inp = .next { p with block := t.respond r, phase := .ready, waiting := inp.presented } := by
  simp [Port.clock, hrst, hkept, hphase, hleft, hdone, giveResponse]

theorem clock_of_wait {f : Flight} {rsp : Option Response} {left : Nat}
    (hphase : p.phase = .busy f rsp left) (hleft : 1 < left) : p.clock inp =
      Port.performIfDue { p with phase := .busy f rsp (left - 1), waiting := inp.presented } := by
  simp [Port.clock, hrst, hkept, hphase, Nat.not_le.mpr hleft]

end

/-- All a clock edge can do. -/
inductive Port.Edge (p : Port) (inp : PortIn) : Prop where
  | reset (hrst : inp.rst = true) (hc : p.clock inp =
      .next { p with block := p.blockAtReset.applyReset, phase := .ready, waiting := inp.presented })
  | broke (hrst : inp.rst = false) (hbroke : p.hostBroke inp = true)
      (hc : p.clock inp = .fault .hostChangedRequest)
  | idle (hphase : p.phase = .ready) (hvalid : inp.reqValid = false)
      (hc : p.clock inp = .next { p with waiting := none })
  | accept (hrst : inp.rst = false) (hphase : p.phase = .ready) (hvalid : inp.reqValid = true)
      (hc : p.clock inp = (p.accept inp.req).performIfDue)
  | last (f : Flight) (rsp : Option Response) (left : Nat) (t : State) (r : Response)
      (hphase : p.phase = .busy f rsp left)
      (hc : p.clock inp = .next { p with block := t.respond r, phase := .ready, waiting := inp.presented })
  | wait (f : Flight) (rsp : Option Response) (left : Nat) (hphase : p.phase = .busy f rsp left)
      (hleft : 1 < left) (hc : p.clock inp =
        Port.performIfDue { p with phase := .busy f rsp (left - 1), waiting := inp.presented })

theorem clock_edge (p : Port) (inp : PortIn) : p.Edge inp := by
  cases hrst : inp.rst with
  | true => exact .reset hrst (clock_of_reset hrst p)
  | false =>
    cases hbroke : p.hostBroke inp with
    | true => exact .broke hrst hbroke (clock_of_broke hrst hbroke)
    | false =>
      cases hphase : p.phase with
      | ready =>
        cases hvalid : inp.reqValid with
        | false => exact .idle hphase hvalid (clock_of_idle hrst hbroke hphase hvalid)
        | true => exact .accept hrst hphase hvalid (clock_of_accept hrst hbroke hphase hvalid)
      | busy f rsp left =>
        rcases Nat.lt_or_ge 1 left with hleft | hleft
        · exact .wait f rsp left hphase hleft (clock_of_wait hrst hbroke hphase hleft)
        · obtain ⟨t, r, hdone⟩ := completed_next p f.req rsp
          exact .last f rsp left t r hphase (clock_of_last hrst hbroke hphase hleft hdone)

/-! ### The request is accepted where the port is ready -/

theorem reqReady_eq_true_iff (p : Port) (rst : Bool) :
    (p.out rst).reqReady = true ↔ rst = false ∧ p.phase = .ready := by
  simp [Port.out]

theorem accepted_of_performIfDue {p p' : Port} (h : p.performIfDue = .next p') : p'.accepted = p.accepted := by
  rcases performIfDue_cases p with ⟨hp, -⟩ | ⟨_, _, _, _, _, _, _, _, hp⟩ <;>
    obtain rfl := Host.Outcome.next.inj (hp.symm.trans h) <;> rfl

/-- Settles O55: of all an edge can do, only acceptance counts a request. -/
theorem portAcceptsOnlyWhenReady : Obligations.PortAcceptsOnlyWhenReady := by
  intro p p' inp h
  refine ⟨rfl, ?_⟩
  rw [reqReady_eq_true_iff]
  cases clock_edge p inp with
  | reset hrst hc =>
    obtain rfl := Host.Outcome.next.inj (hc.symm.trans h)
    simp [hrst]
  | broke _ _ hc => exact nomatch hc.symm.trans h
  | idle _ hvalid hc =>
    obtain rfl := Host.Outcome.next.inj (hc.symm.trans h)
    simp [hvalid]
  | accept hrst hphase hvalid hc =>
    have hacc : p'.accepted = p.accepted + 1 := accepted_of_performIfDue (hc.symm.trans h)
    simp [hacc, hrst, hphase, hvalid]
  | last f rsp left t r hphase hc =>
    obtain rfl := Host.Outcome.next.inj (hc.symm.trans h)
    simp [hphase]
  | wait f rsp left hphase _ hc =>
    have hacc : p'.accepted = p.accepted := (accepted_of_performIfDue (hc.symm.trans h)).trans rfl
    simp [hacc, hphase]

/-! ### The port stops only at a changed request -/

theorem performIfDue_next (p : Port) : ∃ p', p.performIfDue = .next p' := by
  rcases performIfDue_cases p with ⟨h, -⟩ | ⟨_, _, _, _, _, _, _, _, h⟩ <;> exact ⟨_, h⟩

theorem hostBroke_eq_true_iff (p : Port) (inp : PortIn) : p.hostBroke inp = true ↔
    inp.reqValid = true ∧ ∃ held, p.waiting = some held ∧ held ≠ inp.req := by
  unfold Port.hostBroke PortIn.presented
  cases inp.reqValid <;> cases p.waiting <;> simp

/-- Settles O58: of all an edge can do, only the changed request stops the port. -/
theorem portStopsOnlyWhenTheHostChangesARequest : Obligations.PortStopsOnlyWhenTheHostChangesARequest := by
  intro p inp
  cases clock_edge p inp with
  | broke hrst hbroke hc => exact .inr ⟨hc, hrst, (hostBroke_eq_true_iff p inp).mp hbroke⟩
  | accept _ _ _ hc | wait _ _ _ _ _ hc => exact .inl (hc ▸ performIfDue_next _)
  | reset _ hc | idle _ _ hc | last _ _ _ _ _ _ hc => exact .inl ⟨_, hc⟩

/-! ### The invariant of the port -/

theorem legal_of_ready {p : Port} (h : p.phase = .ready) : p.legal = true := by
  simp only [Port.legal, h]

theorem legal_of_busy {p : Port} {f : Flight} {rsp : Option Response} {left : Nat}
    (h : p.phase = .busy f rsp left) : p.legal = true ↔
      1 ≤ left ∧ (f.showsWithResponse = true → f.answersAtReset = true) ∧
        (rsp ≠ none → left = 1 ∧ f.showsWithResponse = true) := by
  simp only [Port.legal, h]
  cases rsp <;> cases f.showsWithResponse <;> simp [and_assoc]

/-- Settles O57: a ready port is legal. -/
theorem portLegalAtReset : Obligations.PortLegalAtReset := legal_of_ready rfl

theorem legal_accept (p : Port) (q : Request) : (p.accept q).legal = true :=
  (legal_of_busy rfl).mpr ⟨Nat.succ_le_succ (Nat.zero_le _), showsWithResponse_answers, fun h => absurd rfl h⟩

/-- What is due takes effect in the last cycle, where it shows. -/
theorem legal_performIfDue {p p' : Port} (hlegal : p.legal = true) (h : p.performIfDue = .next p') :
    p'.legal = true := by
  rcases performIfDue_cases p with ⟨hp, -⟩ | ⟨f, left, t, r, hphase, hleft, hshows, -, hp⟩ <;>
    obtain rfl := Host.Outcome.next.inj (hp.symm.trans h)
  · exact hlegal
  · obtain ⟨hpos, hanswers, -⟩ := (legal_of_busy hphase).mp hlegal
    exact (legal_of_busy rfl).mpr ⟨hpos, hanswers, fun _ => ⟨Nat.le_antisymm hleft hpos, hshows⟩⟩

/-- Settles O56: an edge leaves the port ready, or accepts a request, or lets one cycle of it pass. -/
theorem everyClockEdgeKeepsThePortLegal : Obligations.EveryClockEdgeKeepsThePortLegal := by
  intro p p' inp hlegal h
  cases clock_edge p inp with
  | broke _ _ hc => exact nomatch hc.symm.trans h
  | idle hphase _ hc =>
    obtain rfl := Host.Outcome.next.inj (hc.symm.trans h)
    exact legal_of_ready hphase
  | reset _ hc | last _ _ _ _ _ _ hc =>
    obtain rfl := Host.Outcome.next.inj (hc.symm.trans h)
    exact legal_of_ready rfl
  | accept _ _ _ hc => exact legal_performIfDue (legal_accept p inp.req) (hc.symm.trans h)
  | wait f rsp left hphase hleft hc =>
    obtain ⟨-, hanswers, heffect⟩ := (legal_of_busy hphase).mp hlegal
    have hnone : ¬ rsp ≠ none := fun hrsp => hleft.ne' (heffect hrsp).1
    have hwait : ({ p with phase := .busy f rsp (left - 1), waiting := inp.presented } : Port).legal = true :=
      (legal_of_busy rfl).mpr ⟨Nat.le_sub_one_of_lt hleft, hanswers, fun hrsp => absurd hrsp hnone⟩
    exact legal_performIfDue hwait (hc.symm.trans h)

/-! ### Reset (R97) -/

theorem step_of_reset {s : State} {fl : Option Request} {rest : List HostEvent}
    (hin : s.inbox = .reset fl :: rest) : step s = .next ({ s with inbox := rest } : State).applyReset := by
  rcases step_cases s with ⟨hnil, -⟩ | ⟨_, _, _, _, hreq, -⟩ | ⟨fl', rest', hreset, hs⟩
  · exact nomatch hnil.symm.trans hin
  · exact nomatch hreq.symm.trans hin
  · cases hreset.symm.trans hin
    exact hs

theorem given_of_presenting_none {p : Port} (h : p.presenting = none) (rst : Bool) : p.given rst = none := by
  rw [Port.given, h, ite_self]

theorem blockAtReset_of_given_none {p : Port} (h : p.given true = none) : p.blockAtReset = p.block := by
  simp only [Port.blockAtReset, h]

/-- Settles O39: a reset event and an edge with `rst` enter the same state, the reset one. -/
theorem resetEntersTheResetState : Obligations.ResetEntersTheResetState := by
  refine ⟨fun s fl rest hin => ?_, fun p inp hrst => ?_⟩
  · exact ⟨_, step_of_reset hin, fun r => readV_applyReset _ r, applyReset_status _, applyReset_errcmd _,
      errOut_eq_zero_of_status (applyReset_status _), applyReset_responses _⟩
  · refine ⟨by simp only [Port.out, hrst, Bool.not_true, Bool.false_and], _, clock_of_reset hrst p,
      fun r => readV_applyReset _ r, applyReset_status _, applyReset_errcmd _,
      errOut_eq_zero_of_status (applyReset_status _), rfl, rfl, fun hnone => ⟨given_of_presenting_none hnone _, ?_⟩⟩
    rw [applyReset_responses, blockAtReset_of_given_none (given_of_presenting_none hnone true)]

end Sys2Proof.Machine
end

section
/-! PROOF. A request in flight through the clocked port (20_memory.md R26, 70_reset_and_hazards.md R97): what
holds of the port between acceptance and the response, and the runs of cycles that end with the response or with
a reset. -/

namespace Sys2Proof.Machine

/-- The port `p` carries the request of `f`, which the block `b` accepted as the `k`-th and last, with `left`
cycles to go; the host holds at most the request `held`. The block is still `b`, but for a last cycle in which
the effect shows already. -/
structure InFlight (b : State) (f : Flight) (k : Nat) (held : Request) (left : Nat) (p : Port) : Prop where
  accepted : p.accepted = k
  waiting : p.waiting = none ∨ p.waiting = some held
  effect : (p.phase = .busy f none left ∧ p.block = b ∧ (left = 1 → f.showsWithResponse = false)) ∨
    (left = 1 ∧ f.showsWithResponse = true ∧
      ∃ r, serve f.req b = .next (p.block, r) ∧ p.phase = .busy f (some r) 1)

/-- An input cycle without `rst` in which the host presents nothing, or the request it holds. -/
def PortIn.keeps (held : Request) (i : PortIn) : Prop := i.rst = false ∧ (i.reqValid = true → i.req = held)

/-- What a cycle shows while a request is in flight: the port is not ready, there is no response, and `err_out`
is that of the block which accepted the request. -/
def quietOut (b : State) : PortOut := ⟨false, none, b.errOut⟩

/-! ### The host keeps its duty -/

theorem hostBroke_of_waiting {p : Port} {inp : PortIn} {held : Request}
    (hwait : p.waiting = none ∨ p.waiting = some held) (hreq : inp.reqValid = true → inp.req = held) :
    p.hostBroke inp = false := by
  rw [← Bool.not_eq_true, hostBroke_eq_true_iff]
  rintro ⟨hvalid, held', hheld', hne⟩
  rcases hwait with hnone | hsome
  · exact nomatch hnone.symm.trans hheld'
  · exact hne ((Option.some.inj (hheld'.symm.trans hsome)).trans (hreq hvalid).symm)

theorem presented_of_keeps {inp : PortIn} {held : Request} (h : inp.reqValid = true → inp.req = held) :
    inp.presented = none ∨ inp.presented = some held := by
  unfold PortIn.presented
  split
  next hvalid => exact .inr (congrArg some (h hvalid))
  next => exact .inl rfl

section
variable {b : State} {f : Flight} {k left : Nat} {held : Request} {p : Port} {inp : PortIn}

/-! ### The edges of a flight -/

/-- On entering a cycle, a request that has not taken effect does so where it is due. -/
theorem performIfDue_inFlight (hacc : p.accepted = k) (hwait : p.waiting = none ∨ p.waiting = some held)
    (hphase : p.phase = .busy f none left) (hblock : p.block = b) (hpos : 1 ≤ left) :
    ∃ p', p.performIfDue = .next p' ∧ InFlight b f k held left p' := by
  rcases performIfDue_cases p with ⟨hp, hnotDue⟩ | ⟨f', left', t, r, hphase', hleft, hshows, hserve, hp⟩
  · refine ⟨p, hp, hacc, hwait, .inl ⟨hphase, hblock, fun hlast => ?_⟩⟩
    exact Bool.eq_false_iff.mpr fun hshows => hnotDue f left hphase ⟨hlast.le, hshows⟩
  · cases hphase.symm.trans hphase'
    obtain rfl := Nat.le_antisymm hleft hpos
    exact ⟨_, hp, hacc, hwait, .inr ⟨rfl, hshows, r, hblock ▸ hserve, rfl⟩⟩

theorem clock_accept_inFlight (hready : p.phase = .ready) (hrst : inp.rst = false)
    (hvalid : inp.reqValid = true) (hwait : p.waiting = none ∨ p.waiting = some inp.req) (held : Request) :
    ∃ p', p.clock inp = .next p' ∧ InFlight p.block (.accepted p.accepted inp.req p.block) (p.accepted + 1)
      held (Config.rspLatency p.accepted inp.req p.block) p' := by
  rw [clock_of_accept hrst (hostBroke_of_waiting hwait fun _ => rfl) hready hvalid]
  exact performIfDue_inFlight rfl (.inl rfl) rfl rfl (Nat.succ_le_succ (Nat.zero_le _))

theorem clock_wait_inFlight (h : InFlight b f k held left p) (hleft : 1 < left) (hin : inp.keeps held) :
    ∃ p', p.clock inp = .next p' ∧ InFlight b f k held (left - 1) p' := by
  obtain ⟨hphase, hblock, -⟩ := h.effect.resolve_right fun hlast => hleft.ne' hlast.1
  rw [clock_of_wait hin.1 (hostBroke_of_waiting h.waiting hin.2) hphase hleft]
  exact performIfDue_inFlight h.accepted (presented_of_keeps hin.2) rfl hblock (Nat.le_sub_one_of_lt hleft)

/-- In the last cycle the response is that of serving the request in the block which accepted it. -/
theorem completed_inFlight (h : InFlight b f k held 1 p) : ∃ rsp t r, p.phase = .busy f rsp 1 ∧
    serve f.req b = .next (t, r) ∧ p.completed f.req rsp = .next (t, r) := by
  rcases h.effect with ⟨hphase, rfl, -⟩ | ⟨-, -, r, hserve, hphase⟩
  · obtain ⟨t, r, hserve, -⟩ := serve_cases f.req p.block
    exact ⟨none, t, r, hphase, hserve, hserve⟩
  · exact ⟨some r, p.block, r, hphase, hserve, rfl⟩

/-! ### What the cycles of a flight show -/

theorem presenting_of_last {rsp : Option Response} {t : State} {r : Response} (hphase : p.phase = .busy f rsp 1)
    (hdone : p.completed f.req rsp = .next (t, r)) : p.presenting = some r := by
  simp [Port.presenting, hphase, hdone, responseOf]

theorem presenting_of_wait {rsp : Option Response} (hphase : p.phase = .busy f rsp left) (hleft : 1 < left) :
    p.presenting = none := by
  simp [Port.presenting, hphase, Nat.not_le.mpr hleft]

theorem given_false (p : Port) : p.given false = p.presenting := rfl

theorem reqReady_of_busy {rsp : Option Response} (hphase : p.phase = .busy f rsp left) (rst : Bool) :
    (p.out rst).reqReady = false := by
  simp [Port.out, hphase]

/-- A cycle of a flight in which no response is given, the effect not showing, is quiet. -/
theorem out_eq_quietOut {rsp : Option Response} {rst : Bool} (hphase : p.phase = .busy f rsp left)
    (hblock : p.block = b) (hgiven : p.given rst = none) : p.out rst = quietOut b := by
  have hready := reqReady_of_busy hphase rst
  simp only [Port.out] at hready ⊢
  rw [hready, hgiven, hblock, quietOut]

theorem out_wait_inFlight (h : InFlight b f k held left p) (hleft : 1 < left) (rst : Bool) :
    p.out rst = quietOut b := by
  obtain ⟨hphase, hblock, -⟩ := h.effect.resolve_right fun hlast => hleft.ne' hlast.1
  exact out_eq_quietOut hphase hblock (given_of_presenting_none (presenting_of_wait hphase hleft) rst)

/-! ### Runs of cycles -/

theorem cycles_cons {p' p'' : Port} {ins : List PortIn} {outs : List PortOut} (h : p.clock inp = .next p')
    (hrest : p'.cycles ins = .next (p'', outs)) :
    p.cycles (inp :: ins) = .next (p'', p.out inp.rst :: outs) := by
  simp only [Port.cycles, h, hrest]

theorem of_cycles_cons {p'' : Port} {ins : List PortIn} {outs : List PortOut}
    (h : p.cycles (inp :: ins) = .next (p'', outs)) :
    ∃ p' outs', p.clock inp = .next p' ∧ p'.cycles ins = .next (p'', outs') ∧
      outs = p.out inp.rst :: outs' := by
  rw [Port.cycles] at h
  split at h
  next p' hclock =>
    split at h
    next q outs' hrest =>
      cases h
      exact ⟨p', outs', hclock, hrest, rfl⟩
    all_goals cases h
  all_goals cases h

theorem cycles_append {p' p'' : Port} {ins ins' : List PortIn} {outs outs' : List PortOut}
    (h : p.cycles ins = .next (p', outs)) (h' : p'.cycles ins' = .next (p'', outs')) :
    p.cycles (ins ++ ins') = .next (p'', outs ++ outs') := by
  induction ins generalizing p outs with
  | nil =>
    cases h
    exact h'
  | cons inp ins ih =>
    obtain ⟨q, outs0, hclock, hrest, rfl⟩ := of_cycles_cons h
    exact cycles_cons hclock (ih hrest)

/-- The cycles before the last one are quiet. -/
theorem cycles_wait_inFlight {ins : List PortIn} (h : InFlight b f k held left p) (hlen : ins.length < left)
    (hins : ∀ i ∈ ins, i.keeps held) :
    ∃ p', p.cycles ins = .next (p', List.replicate ins.length (quietOut b)) ∧
      InFlight b f k held (left - ins.length) p' := by
  induction ins generalizing left p with
  | nil => exact ⟨p, rfl, h⟩
  | cons inp ins ih =>
    obtain ⟨hin, hrest⟩ := List.forall_mem_cons.mp hins
    rw [List.length_cons] at hlen ⊢
    have hleft : 1 < left := by omega
    obtain ⟨p', hclock, h'⟩ := clock_wait_inFlight h hleft hin
    obtain ⟨p'', hcycles, h''⟩ := ih h' (by omega) hrest
    refine ⟨p'', ?_, by rwa [Nat.sub_sub, Nat.add_comm] at h''⟩
    rw [cycles_cons hclock hcycles, out_wait_inFlight h hleft, List.replicate_succ]

/-- From the accepting edge on: the port is ready once, and the cycles before the last one are quiet. -/
theorem cycles_accept_inFlight {ins : List PortIn} (hready : p.phase = .ready) (hrst : inp.rst = false)
    (hvalid : inp.reqValid = true) (hwait : p.waiting = none ∨ p.waiting = some inp.req)
    (hlen : ins.length < Config.rspLatency p.accepted inp.req p.block) (hins : ∀ i ∈ ins, i.keeps held) :
    ∃ p', p.cycles (inp :: ins) =
        .next (p', ⟨true, none, p.block.errOut⟩ :: List.replicate ins.length (quietOut p.block)) ∧
      InFlight p.block (.accepted p.accepted inp.req p.block) (p.accepted + 1) held
        (Config.rspLatency p.accepted inp.req p.block - ins.length) p' := by
  obtain ⟨p1, hclock, h1⟩ := clock_accept_inFlight hready hrst hvalid hwait held
  obtain ⟨p2, hcycles, h2⟩ := cycles_wait_inFlight h1 hlen hins
  refine ⟨p2, ?_, h2⟩
  rw [cycles_cons hclock hcycles]
  have hout : p.out inp.rst = ⟨true, none, p.block.errOut⟩ := by
    simp [Port.out, hrst, hready, given_false, Port.presenting]
  rw [hout]

/-- The last cycle presents the response, and its edge leaves the request complete and the port ready. -/
theorem cycles_last_inFlight (h : InFlight b f k held 1 p) (hin : inp.keeps held) :
    ∃ p' t r, serve f.req b = .next (t, r) ∧ p'.phase = .ready ∧ p'.accepted = k ∧ p'.block = t.respond r ∧
      ∃ out : PortOut, out.rsp = some r ∧ out.reqReady = false ∧ p.cycles [inp] = .next (p', [out]) := by
  obtain ⟨rsp, t, r, hphase, hserve, hdone⟩ := completed_inFlight h
  have hclock := clock_of_last hin.1 (hostBroke_of_waiting h.waiting hin.2) hphase le_rfl hdone
  refine ⟨{ p with block := t.respond r, phase := .ready, waiting := inp.presented }, t, r, hserve, rfl,
    h.accepted, rfl, p.out inp.rst, ?_, reqReady_of_busy hphase _, cycles_cons hclock rfl⟩
  rw [hin.1]
  exact presenting_of_last hphase hdone

end

/-- Settles O54: the cycles before the last one are quiet, and the last one completes the request as the step
serves it. -/
theorem portCarriesOneRequestAsOneStep : Obligations.PortCarriesOneRequestAsOneStep := by
  intro p inp ins held hready hrst hvalid hwait hlen hins
  obtain ⟨init, last, rfl⟩ : ∃ init last, ins = init ++ [last] := by
    refine ins.eq_nil_or_concat'.resolve_left fun hnil => ?_
    rw [hnil] at hlen
    exact nomatch hlen
  obtain ⟨hinit, hlast⟩ := List.forall_mem_append.mp hins
  rw [List.length_append, List.length_singleton] at hlen ⊢
  obtain ⟨p1, hcycles, h1⟩ := cycles_accept_inFlight hready hrst hvalid hwait (by omega) hinit
  rw [← hlen, Nat.add_sub_cancel_left] at h1
  obtain ⟨p', t, r, hserve, hready', hacc, hblock, out, hrsp, hnotReady, hend⟩ :=
    cycles_last_inFlight h1 (hlast last List.mem_cons_self)
  refine ⟨p', _, r, cycles_append hcycles hend, hready', hacc, ?_, ?_, ?_, ?_⟩
  · rw [hblock]
    have hserve' : serve inp.req { p.block with inbox := [] } = .next ({ t with inbox := [] }, r) :=
      serve_inbox [] hserve
    exact step_of_serve (s := { p.block with inbox := [.request inp.req] }) (rest := []) rfl hserve'
  · rw [hblock, respond_responses, (serve_port hserve).2]
  · simp [quietOut, hrsp, List.replicate_succ]
  · simp [quietOut, hnotReady, List.replicate_succ']

section
variable {b : State} {f : Flight} {k left : Nat} {held : Request} {p : Port} {inp : PortIn}

/-! ### Reset during a flight -/

theorem applyReset_congr {s t : State} (hin : t.inbox = s.inbox) (hresp : t.responses = s.responses) :
    t.applyReset = s.applyReset := by
  simp only [State.applyReset, hin, hresp]

/-- An edge with `rst` ends the run of cycles in the reset state, and a response given there counts. -/
theorem cycles_reset (hrst : inp.rst = true) (p : Port) : ∃ p', p.cycles [inp] = .next (p', [p.out true]) ∧
    p'.phase = .ready ∧ p'.block = p.blockAtReset.applyReset :=
  ⟨{ p with block := p.blockAtReset.applyReset, phase := .ready, waiting := inp.presented },
    hrst ▸ cycles_cons (clock_of_reset hrst p) rfl, rfl, rfl⟩

/-- Where the reset comes before the last cycle, or the response of the last cycle does not count, nothing of the
request is left: no response, and the block is the one that accepted it. -/
theorem abandoned_inFlight (h : InFlight b f k held left p)
    (hanswers : f.showsWithResponse = true → f.answersAtReset = true)
    (habandon : 1 < left ∨ f.answersAtReset = false) : p.out true = quietOut b ∧ p.blockAtReset = b := by
  have hgiven (rsp : Option Response) (hphase : p.phase = .busy f rsp left) : p.given true = none := by
    rcases habandon with hleft | hnot
    · exact given_of_presenting_none (presenting_of_wait hphase hleft) true
    · simp [Port.given, Port.answersAtReset, hphase, hnot]
  rcases h.effect with ⟨hphase, hblock, -⟩ | ⟨hlast, hshows, -⟩
  · exact ⟨out_eq_quietOut hphase hblock (hgiven none hphase),
      (blockAtReset_of_given_none (hgiven none hphase)).trans hblock⟩
  · rcases habandon with hleft | hnot
    · exact absurd hlast hleft.ne'
    · exact nomatch hnot.symm.trans (hanswers hshows)

/-- Where the response of the last cycle counts, the reset keeps it and nothing else of the request. -/
theorem answered_inFlight (h : InFlight b f k held 1 p) (hanswers : f.answersAtReset = true) :
    ∃ r, (p.out true).rsp = some r ∧ p.blockAtReset.applyReset = (b.respond r).applyReset := by
  obtain ⟨rsp, t, r, hphase, -, hdone⟩ := completed_inFlight h
  have hgiven : p.given true = some r := by
    rw [← presenting_of_last hphase hdone]
    simp [Port.given, Port.answersAtReset, hphase, hanswers]
  have hport : p.block.inbox = b.inbox ∧ p.block.responses = b.responses := by
    rcases h.effect with ⟨-, hblock, -⟩ | ⟨-, -, r', hserve, -⟩
    · exact ⟨hblock ▸ rfl, hblock ▸ rfl⟩
    · exact serve_port hserve
  refine ⟨r, hgiven, ?_⟩
  simp only [Port.blockAtReset, hgiven]
  exact applyReset_congr hport.1 (congrArg (· ++ [r]) hport.2)

end

/-- Settles O59: the cycles of the flight are quiet; the reset meets the request before its last cycle, or in
it, where the response counts or does not. -/
theorem abandonedRequestIsNotObservable : Obligations.AbandonedRequestIsNotObservable := by
  intro p inp last ins held hready hrst hvalid hwait hlen hlast hins
  obtain ⟨p1, hcycles, h1⟩ := cycles_accept_inFlight hready hrst hvalid hwait hlen hins
  obtain ⟨p', hreset, hready', hblock⟩ := cycles_reset hlast p1
  refine ⟨p', _, cycles_append hcycles hreset, hready', ?_⟩
  by_cases habandon : 1 < Config.rspLatency p.accepted inp.req p.block - ins.length ∨
      Config.answersAtReset p.accepted inp.req p.block = false
  · obtain ⟨hout, hb⟩ := abandoned_inFlight h1 showsWithResponse_answers habandon
    refine .inl ⟨List.forall_mem_append.mpr ⟨List.forall_mem_cons.mpr ⟨⟨rfl, rfl⟩, fun o ho => ?_⟩,
      List.forall_mem_singleton.mpr ?_⟩, hblock.trans (congrArg State.applyReset hb)⟩
    · rw [List.eq_of_mem_replicate ho]
      exact ⟨rfl, rfl⟩
    · rw [hout]
      exact ⟨rfl, rfl⟩
  · rw [not_or, Bool.not_eq_false] at habandon
    obtain ⟨hleft, hanswers⟩ := habandon
    have hlatency : ins.length + 1 = Config.rspLatency p.accepted inp.req p.block := by omega
    rw [← hlatency, Nat.add_sub_cancel_left] at h1
    obtain ⟨r, hrsp, hb⟩ := answered_inFlight h1 hanswers
    refine .inr ⟨hlatency, hanswers, r, ?_, hblock.trans hb⟩
    simp [quietOut, hrsp, List.replicate_succ]

end Sys2Proof.Machine
end
